-- ==== Sys2Proof/Word.lean ====
section
/-! DEFINITION. The word types of the block: every value is an unsigned number of a stated width
(00_scope.md R10, R11), so each is a bit vector whose bit 0 is its least significant bit. -/

namespace Sys2Proof

/-- One byte of the buffer memory, of a payload or of a frame (R10, R60). -/
abbrev Byte := BitVec 8

/-- A 16-bit operand: an address, a length, a capacity or a varint value (R91). -/
abbrev Half := BitVec 16

/-- A 32-bit value: a timestamp or a checksum (R21, R91). -/
abbrev Word := BitVec 32

/-- A command word (30_encoding.md R90). -/
abbrev Cmd := BitVec 64

end Sys2Proof
end

