-- ==== Sys2Proof/Syntax.lean ====
section
/-! DEFINITION. The instructions: one constructor for each row of spec/opcode_table.json, 27 operations
(30_encoding.md R93) and the 3 wire forms (R97, R101, R102). -/

namespace Sys2Proof

/-- The packet bank an operation names: bit `k` of the command word (R20, R90). -/
inductive BankId where
  | p0
  | p1
  deriving DecidableEq, Repr

/-- The CRC engine the `CRC32` operation names: bit `e` of the command word (R154, R156). -/
inductive Engine where
  /-- The header engine (R155). -/
  | e0
  /-- The payload engine (R155). -/
  | e1
  deriving DecidableEq, Repr

/-- The rows of the opcode table. Operand widths are those of R91, operand order that of R93. -/
inductive Instr where
  /-- `VPREDICT value` (R131). -/
  | vpredict (value : Half)
  /-- `VENCODE value, base, cap` (R132). -/
  | vencode (value base cap : Half)
  /-- `VDECODE base, avail` (R135). -/
  | vdecode (base avail : Half)
  /-- `CRC32 e, base, len` (R156). -/
  | crc32 (e : Engine) (base len : Half)
  /-- `PCLEAR k` (R170). -/
  | pclear (k : BankId)
  /-- `SETTYPE k, t` (R172). -/
  | settype (k : BankId) (t : Byte)
  /-- `SETTR k, tr` (R173). -/
  | settr (k : BankId) (tr : Byte)
  /-- `SETWIN k, w` (R174). -/
  | setwin (k : BankId) (w : Byte)
  /-- `SETLEN k, len` (R175). -/
  | setlen (k : BankId) (len : Half)
  /-- `SETSEQ k, s` (R176). -/
  | setseq (k : BankId) (sq : Byte)
  /-- `SETTS k, t` (R177). -/
  | setts (k : BankId) (t : Word)
  /-- `SETCRC1 k, c` (R178). -/
  | setcrc1 (k : BankId) (c : Word)
  /-- `SETCRC2 k, c` (R179). -/
  | setcrc2 (k : BankId) (c : Word)
  /-- `SETPAY k, base, len` (R180). -/
  | setpay (k : BankId) (base len : Half)
  /-- `GETTYPE k` (R190). -/
  | gettype (k : BankId)
  /-- `GETTR k` (R191). -/
  | gettr (k : BankId)
  /-- `GETWIN k` (R192). -/
  | getwin (k : BankId)
  /-- `GETLEN k` (R193). -/
  | getlen (k : BankId)
  /-- `GETSEQ k` (R194). -/
  | getseq (k : BankId)
  /-- `GETTS k` (R195). -/
  | getts (k : BankId)
  /-- `GETCRC1 k` (R196). -/
  | getcrc1 (k : BankId)
  /-- `GETCRC2 k` (R197). -/
  | getcrc2 (k : BankId)
  /-- `GETPAY k, base` (R198). -/
  | getpay (k : BankId) (base : Half)
  /-- `PENC k, base, cap` (R210). -/
  | penc (k : BankId) (base cap : Half)
  /-- `PDEC k, base, len` (R230). -/
  | pdec (k : BankId) (base len : Half)
  /-- `BMWR addr, byte` (R260). -/
  | bmwr (addr : Half) (byte : Byte)
  /-- `BMRD addr` (R261). -/
  | bmrd (addr : Half)
  /-- The row WIRE.VARINT1, the 1-byte form of the length field (R101): a layout inside a frame, no operation. -/
  | wireVarint1 (v : BitVec 7)
  /-- The row WIRE.VARINT2, the 2-byte form of the length field (R102): a layout inside a frame, no operation. -/
  | wireVarint2 (v : BitVec 15)
  /-- The row WIRE.BYTE0, byte 0 of a frame (R97): a layout inside a frame, no operation. -/
  | wireByte0 (t : BitVec 2) (r : BitVec 1) (w : BitVec 5)
  deriving DecidableEq, Repr

end Sys2Proof
end

