-- ==== Sys2Proof/WellFormed.lean ====
section
/-! DEFINITION. Which instructions are well formed. The operand types of the 27 operations hold exactly the
values their command fields can carry (R91), so every operation is well formed. A wire form is well formed when
it is legal on the wire as a conforming encoder writes it (R102, R117, R118). -/

namespace Sys2Proof

/-- Byte 0 is legal: a type is set, and the truncated flag stands only beside DATA (R117, R118). -/
def byte0Legal (t : BitVec 2) (r : BitVec 1) : Bool := t != 0 && (r == 0 || t == 1)

/-- A value that the encoder writes in two bytes, "for `128 <= v <= 32767`" (R102). The decoder accepts the
others too (R104), and so does `decode`. -/
def varint2Canonical (v : BitVec 15) : Bool := 128 ≤ v.toNat

/-- The well-formed instructions. -/
def Instr.wellFormed : Instr → Bool
  | .vpredict _ => true
  | .vencode _ _ _ => true
  | .vdecode _ _ => true
  | .crc32 _ _ _ => true
  | .pclear _ => true
  | .settype _ _ => true
  | .settr _ _ => true
  | .setwin _ _ => true
  | .setlen _ _ => true
  | .setseq _ _ => true
  | .setts _ _ => true
  | .setcrc1 _ _ => true
  | .setcrc2 _ _ => true
  | .setpay _ _ _ => true
  | .gettype _ => true
  | .gettr _ => true
  | .getwin _ => true
  | .getlen _ => true
  | .getseq _ => true
  | .getts _ => true
  | .getcrc1 _ => true
  | .getcrc2 _ => true
  | .getpay _ _ => true
  | .penc _ _ _ => true
  | .pdec _ _ _ => true
  | .bmwr _ _ => true
  | .bmrd _ => true
  | .wireVarint1 _ => true
  | .wireVarint2 v => varint2Canonical v
  | .wireByte0 t r _ => byte0Legal t r

end Sys2Proof
end

