-- ==== Sys2Proof/Decode.lean ====
section
/-! DEFINITION. Reading and writing the two encodings of the block: the 64-bit command word (30_encoding.md
Part A) and the wire forms inside a frame (Part B). `decode` is total and rejects by name; `encode` stands after
it and is written from the same tables. -/

namespace Sys2Proof

/-! ### The command word (R90) -/

/-- The fields of a command word, as R90 lays them out. -/
structure CmdFields where
  /-- bits 63:56 -/
  op : BitVec 8
  /-- bits 55:49 -/
  z : BitVec 7
  /-- bit 48 -/
  k : BitVec 1
  /-- bits 47:32 -/
  b : BitVec 16
  /-- bits 31:0 -/
  a : BitVec 32
  deriving DecidableEq, Repr

/-- The fields of a command word (R90). -/
def CmdFields.ofCmd (w : Cmd) : CmdFields where
  op := w.extractLsb' 56 8
  z := w.extractLsb' 49 7
  k := w.extractLsb' 48 1
  b := w.extractLsb' 32 16
  a := w.extractLsb' 0 32

/-- The command word with these fields (R90). -/
def CmdFields.toCmd (f : CmdFields) : Cmd := f.op ++ f.z ++ f.k ++ f.b ++ f.a

/-- `ah = a[31:16]` (R90). -/
def CmdFields.ah (f : CmdFields) : Half := f.a.extractLsb' 16 16

/-- `al = a[15:0]` (R90). -/
def CmdFields.al (f : CmdFields) : Half := f.a.extractLsb' 0 16

/-- `a8 = a[7:0]` (R90). -/
def CmdFields.a8 (f : CmdFields) : Byte := f.a.extractLsb' 0 8

/-- The bank a `k` bit names (R20). -/
def BankId.ofBit (k : BitVec 1) : BankId := if k = 0 then .p0 else .p1

/-- The `k` bit of a bank (R20). -/
def BankId.bit : BankId → BitVec 1
  | .p0 => 0
  | .p1 => 1

/-- The engine an `e` bit names: "0 for `E0`, 1 for `E1`" (R156). -/
def Engine.ofBit (e : BitVec 1) : Engine := if e = 0 then .e0 else .e1

/-- The `e` bit of an engine (R156). -/
def Engine.bit : Engine → BitVec 1
  | .e0 => 0
  | .e1 => 1

/-- The eleven operand formats (R92). -/
inductive Format where
  | v
  | vbc
  | bn
  | kbn
  | k
  | k8
  | k16
  | k32
  | kb
  | b8
  | b
  deriving DecidableEq, Repr

/-- Whether a format uses the field `k` (R92). -/
def Format.usesK : Format → Bool
  | .kbn | .k | .k8 | .k16 | .k32 | .kb => true
  | .v | .vbc | .bn | .b8 | .b => false

/-- Whether a format uses the field `b` (R92). -/
def Format.usesB : Format → Bool
  | .vbc | .bn | .kbn | .kb | .b8 | .b => true
  | .v | .k | .k8 | .k16 | .k32 => false

/-- How many low bits of the field `a` a format uses (R92): all of it, `al`, `a8` or none. -/
def Format.aBits : Format → Nat
  | .vbc | .k32 => 32
  | .v | .bn | .kbn | .k16 => 16
  | .k8 | .b8 => 8
  | .k | .kb | .b => 0

/-- The `mask` column of R92: the bits that must match exactly. -/
def Format.mask : Format → Cmd
  | .v => 0xFFFFFFFFFFFF0000
  | .vbc => 0xFFFF000000000000
  | .bn => 0xFFFF0000FFFF0000
  | .kbn => 0xFFFE0000FFFF0000
  | .k => 0xFFFEFFFFFFFFFFFF
  | .k8 => 0xFFFEFFFFFFFFFF00
  | .k16 => 0xFFFEFFFFFFFF0000
  | .k32 => 0xFFFEFFFF00000000
  | .kb => 0xFFFE0000FFFFFFFF
  | .b8 => 0xFFFF0000FFFFFF00
  | .b => 0xFFFF0000FFFFFFFF

/-- A bit is set in a field that the format does not use (R115). -/
def Format.stray (f : Format) (c : CmdFields) : Bool :=
  (!f.usesK && c.k != 0) || (!f.usesB && c.b != 0) || (c.a >>> f.aBits) != 0

/-- The opcode map (R93): for an opcode, its format and how its operands come from the fields. -/
def operation (op : BitVec 8) : Option (Format × (CmdFields → Instr)) :=
  match op.toNat with
  | 0x01 => some (.v, fun f => .vpredict f.al)
  | 0x02 => some (.vbc, fun f => .vencode f.al f.b f.ah)
  | 0x03 => some (.bn, fun f => .vdecode f.b f.al)
  | 0x08 => some (.kbn, fun f => .crc32 (Engine.ofBit f.k) f.b f.al)
  | 0x10 => some (.k, fun f => .pclear (BankId.ofBit f.k))
  | 0x11 => some (.k8, fun f => .settype (BankId.ofBit f.k) f.a8)
  | 0x12 => some (.k8, fun f => .settr (BankId.ofBit f.k) f.a8)
  | 0x13 => some (.k8, fun f => .setwin (BankId.ofBit f.k) f.a8)
  | 0x14 => some (.k16, fun f => .setlen (BankId.ofBit f.k) f.al)
  | 0x15 => some (.k8, fun f => .setseq (BankId.ofBit f.k) f.a8)
  | 0x16 => some (.k32, fun f => .setts (BankId.ofBit f.k) f.a)
  | 0x17 => some (.k32, fun f => .setcrc1 (BankId.ofBit f.k) f.a)
  | 0x18 => some (.k32, fun f => .setcrc2 (BankId.ofBit f.k) f.a)
  | 0x19 => some (.kbn, fun f => .setpay (BankId.ofBit f.k) f.b f.al)
  | 0x21 => some (.k, fun f => .gettype (BankId.ofBit f.k))
  | 0x22 => some (.k, fun f => .gettr (BankId.ofBit f.k))
  | 0x23 => some (.k, fun f => .getwin (BankId.ofBit f.k))
  | 0x24 => some (.k, fun f => .getlen (BankId.ofBit f.k))
  | 0x25 => some (.k, fun f => .getseq (BankId.ofBit f.k))
  | 0x26 => some (.k, fun f => .getts (BankId.ofBit f.k))
  | 0x27 => some (.k, fun f => .getcrc1 (BankId.ofBit f.k))
  | 0x28 => some (.k, fun f => .getcrc2 (BankId.ofBit f.k))
  | 0x29 => some (.kb, fun f => .getpay (BankId.ofBit f.k) f.b)
  | 0x30 => some (.kbn, fun f => .penc (BankId.ofBit f.k) f.b f.al)
  | 0x31 => some (.kbn, fun f => .pdec (BankId.ofBit f.k) f.b f.al)
  | 0x40 => some (.b8, fun f => .bmwr f.b f.a8)
  | 0x41 => some (.b, fun f => .bmrd f.b)
  | _ => none

/-- Why a word is no instruction. -/
inductive DecodeError where
  /-- The opcode is not in R93 (R113). Raised by `decodeCommand`. -/
  | reservedOpcode (op : BitVec 8)
  /-- The `z` field is not zero (R114). Raised by `decodeCommand`. -/
  | nonzeroZ (z : BitVec 7)
  /-- A bit is set in a field that the operation's format does not use (R115). Raised by `decodeCommand`. -/
  | strayOperand (f : Format)
  /-- The bytes end before the length field does (R130 `vdec`). Raised by `decodeLength`. -/
  | truncatedVarint
  deriving DecidableEq, Repr

/-- How a command word is read (R94): look the opcode up, check `z` and the unused fields, take the operands. -/
def decodeCommand (w : Cmd) : Except DecodeError Instr :=
  let f := CmdFields.ofCmd w
  match operation f.op with
  | none => .error (.reservedOpcode f.op)
  | some (fmt, build) =>
    if f.z ≠ 0 then .error (.nonzeroZ f.z)
    else if fmt.stray f then .error (.strayOperand fmt)
    else .ok (build f)

/-! ### The wire forms (R97, R101, R102) -/

/-- Byte 0 of a frame: "`type = byte0 >> 6`, `truncated = (byte0 >> 5) & 1`, `window = byte0 & 0x1F`" (R97). -/
def decodeByte0 (x : Byte) : Instr :=
  .wireByte0 (x.extractLsb' 6 2) (x.extractLsb' 5 1) (x.extractLsb' 0 5)

/-- The length field at the head of some bytes: bit 7 of the first byte tells the form (R103). -/
def decodeLength : List Byte → Except DecodeError Instr
  | [] => .error .truncatedVarint
  | x :: rest =>
    if x.extractLsb' 7 1 = 0 then .ok (.wireVarint1 (x.extractLsb' 0 7))
    else
      match rest with
      | [] => .error .truncatedVarint
      | y :: _ => .ok (.wireVarint2 (x.extractLsb' 0 7 ++ y))

/-- Bits together with the place they stand in. Which of the table's rows a byte is depends on its place: the
same 8 bits can be byte 0 of a frame and a 1-byte length field. -/
inductive CodeWord where
  /-- A word at the command port (R38, R90). -/
  | command (w : Cmd)
  /-- The byte at offset 0 of a frame (R96). -/
  | frameStart (x : Byte)
  /-- The bytes from offset 1 of a frame, or a buffer the varint codec reads (R96, R135). -/
  | lengthField (bytes : List Byte)
  deriving DecidableEq, Repr

/-- The decoder: total, rejecting by name. -/
def decode : CodeWord → Except DecodeError Instr
  | .command w => decodeCommand w
  | .frameStart x => .ok (decodeByte0 x)
  | .lengthField bytes => decodeLength bytes

/-! ### The encoder -/

/-- The word of an operation from its opcode, bank or engine bit, address and value field, with `z = 0`. -/
def command (op : BitVec 8) (k : BitVec 1) (b : BitVec 16) (a : BitVec 32) : CodeWord :=
  .command (CmdFields.toCmd { op := op, z := 0, k := k, b := b, a := a })

/-- The words of an instruction (R90 to R93 for operations, R97, R101, R102 for the wire forms). -/
def encode : Instr → CodeWord
  | .vpredict value => command 0x01 0 0 (0#16 ++ value)
  | .vencode value base cap => command 0x02 0 base (cap ++ value)
  | .vdecode base avail => command 0x03 0 base (0#16 ++ avail)
  | .crc32 e base len => command 0x08 e.bit base (0#16 ++ len)
  | .pclear k => command 0x10 k.bit 0 0
  | .settype k t => command 0x11 k.bit 0 (0#24 ++ t)
  | .settr k tr => command 0x12 k.bit 0 (0#24 ++ tr)
  | .setwin k w => command 0x13 k.bit 0 (0#24 ++ w)
  | .setlen k len => command 0x14 k.bit 0 (0#16 ++ len)
  | .setseq k sq => command 0x15 k.bit 0 (0#24 ++ sq)
  | .setts k t => command 0x16 k.bit 0 t
  | .setcrc1 k c => command 0x17 k.bit 0 c
  | .setcrc2 k c => command 0x18 k.bit 0 c
  | .setpay k base len => command 0x19 k.bit base (0#16 ++ len)
  | .gettype k => command 0x21 k.bit 0 0
  | .gettr k => command 0x22 k.bit 0 0
  | .getwin k => command 0x23 k.bit 0 0
  | .getlen k => command 0x24 k.bit 0 0
  | .getseq k => command 0x25 k.bit 0 0
  | .getts k => command 0x26 k.bit 0 0
  | .getcrc1 k => command 0x27 k.bit 0 0
  | .getcrc2 k => command 0x28 k.bit 0 0
  | .getpay k base => command 0x29 k.bit base 0
  | .penc k base cap => command 0x30 k.bit base (0#16 ++ cap)
  | .pdec k base len => command 0x31 k.bit base (0#16 ++ len)
  | .bmwr addr byte => command 0x40 0 addr (0#24 ++ byte)
  | .bmrd addr => command 0x41 0 addr 0
  | .wireVarint1 v => .lengthField [0#1 ++ v]
  | .wireVarint2 v => .lengthField [1#1 ++ v.extractLsb' 8 7, v.extractLsb' 0 8]
  | .wireByte0 t r w => .frameStart (t ++ r ++ w)

/-- How many bits a code word has, as the opcode table gives its row's width. -/
def CodeWord.nbits : CodeWord → Nat
  | .command _ => 64
  | .frameStart _ => 8
  | .lengthField bytes => 8 * bytes.length

/-- A code word as one number, numbered as the opcode table numbers its row: the first byte of a 2-byte length
field in bits 15:8. -/
def CodeWord.toNat : CodeWord → Nat
  | .command w => w.toNat
  | .frameStart x => x.toNat
  | .lengthField bytes => bytes.foldl (fun n x => 256 * n + x.toNat) 0

/-! ### The rows of the opcode table -/

/-- A command row of the opcode table: its mnemonic and the `mask` and `match` a word is compared under (R93). -/
structure Row where
  mnemonic : String
  mask : Cmd
  pattern : Cmd
  deriving DecidableEq, Repr

/-- A row from its opcode and format: "`match` for an operation is `op << 56`" (R92). -/
def Row.of (mnemonic : String) (op : BitVec 8) (fmt : Format) : Row :=
  { mnemonic := mnemonic, mask := fmt.mask, pattern := op.zeroExtend 64 <<< 56 }

/-- The 27 command rows, in the order of R93. -/
def commandRows : List Row :=
  [ Row.of "VPREDICT" 0x01 .v, Row.of "VENCODE" 0x02 .vbc, Row.of "VDECODE" 0x03 .bn,
    Row.of "CRC32" 0x08 .kbn, Row.of "PCLEAR" 0x10 .k, Row.of "SETTYPE" 0x11 .k8,
    Row.of "SETTR" 0x12 .k8, Row.of "SETWIN" 0x13 .k8, Row.of "SETLEN" 0x14 .k16,
    Row.of "SETSEQ" 0x15 .k8, Row.of "SETTS" 0x16 .k32, Row.of "SETCRC1" 0x17 .k32,
    Row.of "SETCRC2" 0x18 .k32, Row.of "SETPAY" 0x19 .kbn ] ++
  [ Row.of "GETTYPE" 0x21 .k, Row.of "GETTR" 0x22 .k, Row.of "GETWIN" 0x23 .k,
    Row.of "GETLEN" 0x24 .k, Row.of "GETSEQ" 0x25 .k, Row.of "GETTS" 0x26 .k,
    Row.of "GETCRC1" 0x27 .k, Row.of "GETCRC2" 0x28 .k, Row.of "GETPAY" 0x29 .kb,
    Row.of "PENC" 0x30 .kbn, Row.of "PDEC" 0x31 .kbn, Row.of "BMWR" 0x40 .b8,
    Row.of "BMRD" 0x41 .b ]

/-- The word is selected by the row: `cmd & mask == match` (R93). -/
def Row.selects (r : Row) (w : Cmd) : Bool := w &&& r.mask == r.pattern

/-- The mnemonic of an instruction's row in the opcode table. -/
def Instr.mnemonic : Instr → String
  | .vpredict _ => "VPREDICT"
  | .vencode _ _ _ => "VENCODE"
  | .vdecode _ _ => "VDECODE"
  | .crc32 _ _ _ => "CRC32"
  | .pclear _ => "PCLEAR"
  | .settype _ _ => "SETTYPE"
  | .settr _ _ => "SETTR"
  | .setwin _ _ => "SETWIN"
  | .setlen _ _ => "SETLEN"
  | .setseq _ _ => "SETSEQ"
  | .setts _ _ => "SETTS"
  | .setcrc1 _ _ => "SETCRC1"
  | .setcrc2 _ _ => "SETCRC2"
  | .setpay _ _ _ => "SETPAY"
  | .gettype _ => "GETTYPE"
  | .gettr _ => "GETTR"
  | .getwin _ => "GETWIN"
  | .getlen _ => "GETLEN"
  | .getseq _ => "GETSEQ"
  | .getts _ => "GETTS"
  | .getcrc1 _ => "GETCRC1"
  | .getcrc2 _ => "GETCRC2"
  | .getpay _ _ => "GETPAY"
  | .penc _ _ _ => "PENC"
  | .pdec _ _ _ => "PDEC"
  | .bmwr _ _ => "BMWR"
  | .bmrd _ => "BMRD"
  | .wireVarint1 _ => "WIRE.VARINT1"
  | .wireVarint2 _ => "WIRE.VARINT2"
  | .wireByte0 _ _ _ => "WIRE.BYTE0"

/-- The instruction is encoded with this opcode and format, its operands where `operands` says: the word's opcode
is `op`, its `z` field and every field the format does not use are zero (R92, R94). -/
def Instr.HasEncoding (i : Instr) (op : BitVec 8) (fmt : Format) (operands : CmdFields → Prop) : Prop :=
  ∃ f : CmdFields, encode i = .command f.toCmd ∧ f.op = op ∧ f.z = 0 ∧ fmt.stray f = false ∧ operands f

/-! ### The host's question -/

/-- The instruction the decoder reads from a table word. A word of 64 bits is a command. A word of 16 bits is a
2-byte length field. Of the two 8-bit rows, which only their place in a frame tells apart, a word with bit 7
clear is read as a 1-byte length field and one with bit 7 set as byte 0 of a frame. -/
def decodeTableWord (nbits w : Nat) : Option Instr :=
  if nbits = 64 then (decode (.command (BitVec.ofNat 64 w))).toOption
  else if nbits = 16 then
    (decode (.lengthField [BitVec.ofNat 8 (w / 256), BitVec.ofNat 8 w])).toOption
  else if nbits = 8 then
    if w < 128 then (decode (.lengthField [BitVec.ofNat 8 w])).toOption
    else (decode (.frameStart (BitVec.ofNat 8 w))).toOption
  else none

end Sys2Proof
end

