-- ==== Sys2Proof/Config.lean ====
section
/-! DEFINITION. What is fixed for one build of the block: the constants the document fixes (R7, R9), the
parameters it leaves open (R8, R37) and the free values, which nothing in the spec constrains (R45, R62). -/

namespace Sys2Proof.Config

/-- LEN_CAP (R7): the largest legal `length` and the largest payload, in bytes. -/
@[simp] def lenCap : Nat := 512

/-- WIN_MAX (R7): the largest legal window. -/
@[simp] def winMax : Nat := 31

/-- VAR_MAX1 (R7): the largest value of the 1-byte varint form. -/
@[simp] def varMax1 : Nat := 127

/-- VAR_MAX2 (R7): the largest value a varint can carry. -/
@[simp] def varMax2 : Nat := 32767

/-- HDR_FIXED (R7): header bytes other than the varint. -/
@[simp] def hdrFixed : Nat := 6

/-- TRAILER (R7): the bytes of CRC1 and CRC2 together. -/
@[simp] def trailer : Nat := 8

/-- MIN_HDR (R7): the decoder's first floor. -/
@[simp] def minHdr : Nat := 7

/-- MIN_CRC (R7): the decoder's second floor. -/
@[simp] def minCrc : Nat := 11

/-- MAX_FRAME (R9): the largest frame the encoder can emit, and so the least size of the buffer memory. -/
@[simp] def maxFrame : Nat := 528

/-- The largest size a 16-bit address operand can reach (R8, R60). -/
@[simp] def maxBm : Nat := 65536

/-- The type code DATA (R7, R98). -/
@[simp] def typeData : BitVec 2 := 1

/-- The type code ACK (R7, R98). -/
@[simp] def typeAck : BitVec 2 := 2

/-- The type code NACK (R7, R98). -/
@[simp] def typeNack : BitVec 2 := 3

/-- FREE VALUE. What the buffer memory holds at `addr` after the `resets`-th reset until an operation writes
it: unspecified but stable (20_memory.md R62, 93_implementation_defined.md U2). It has no body. -/
opaque bmUnwritten (resets addr : Nat) : Byte

/-- FREE VALUE. What the payload store of bank number `bank` holds at index `i` after the `resets`-th reset
until an operation writes it (10_state.md R32, R45; U2). It has no body. -/
opaque plUnwritten (resets bank i : Nat) : Byte

/-- FREE VALUE. The parameter CRC32 of a build that does not take the default: build number `n` may have any
function of the bytes alone (41_crc32_gen.md R150, R153 `CRC.fun`; 92_eei_decisions.md D9). It has no body. -/
opaque crc32Other (n : Nat) (s : List Byte) : Word

/-- The choice of the open parameter CRC32 (R8, R150, R151). -/
inductive Crc32Choice where
  /-- The default, CRC-32/ISO-HDLC (R151). -/
  | isoHdlc
  /-- Some other build, whose function is uninterpreted (R153). -/
  | other (n : Nat)
  deriving DecidableEq, Repr

/-- The open parameters of one build (R8, R37). They are data, so that a claim can quantify over them. -/
structure Params where
  /-- BM_SIZE, the bytes of buffer memory (D7). -/
  bmSize : Nat
  /-- ENC_MASK_TR: the encoder clears the truncated bit before it computes CRC1 (D10). -/
  encMaskTr : Bool
  /-- CRC32, the checksum function (D9). -/
  crc32 : Crc32Choice
  deriving DecidableEq, Repr

/-- The defaults of R8. -/
def Params.default : Params := { bmSize := 2048, encMaskTr := false, crc32 := .isoHdlc }

/-- The constraint of R8 on BM_SIZE. The other two parameters have none. -/
abbrev Params.Allowed (p : Params) : Prop := maxFrame ≤ p.bmSize ∧ p.bmSize ≤ maxBm

end Sys2Proof.Config
end

