-- ==== Sys2Proof/Machine/State.lean ====
section
/-! DEFINITION. The state of the block (10_state.md R20, R44) as plain data: two packet banks, the response
registers and the buffer memory. The fields `params`, `inputs`, `resets` and `rspValid` are the model's own: see
notes/assumptions 1 to 4. -/

namespace Sys2Proof.Machine

/-- A sparse byte memory: the bytes written since reset, by rising address. An unlisted address has no written
byte; what reading it gives is the free value of `State.bmByte` or `State.plByte` (R62, R32). -/
abbrev Memory := List Host.Cell

/-- The canonical form of a memory: addresses strictly rising, so that equal memories are equal lists. -/
abbrev Memory.wf (m : Memory) : Prop := m.Pairwise (fun c d => c.1 < d.1)

/-- The status kinds (60_exceptions.md R270). Codes 10 to 13 are never produced, so no constructor has them. -/
inductive Status where
  /-- The operation succeeded. -/
  | ok
  /-- A type value that is not DATA, ACK or NACK (R272). -/
  | invalidType
  /-- A truncated value that is not 0 or 1, or 1 on a packet that is not DATA (R273). -/
  | invalidTruncationFlag
  /-- A window above 31 (R274). -/
  | invalidWindow
  /-- A length above 512, unrepresentable, or not that of the stored payload (R275). -/
  | invalidLength
  /-- A payload of more than 512 bytes (R276). -/
  | payloadTooLarge
  /-- An output buffer smaller than the bytes to write (R277). -/
  | bufferTooSmall
  /-- An input too short to hold a header or a varint (R278). -/
  | headerTooShort
  /-- A recomputed CRC differs from the one in the frame, or the decoder's floor (R279). -/
  | checksumMismatch
  /-- A frame that is not truncated announces more bytes than the input has (R280). -/
  | inconsistentLength
  /-- A declared byte range does not lie inside the buffer memory (R281). -/
  | addressError
  /-- The command word is not an operation (R282). -/
  | illegalCommand
  deriving DecidableEq, Repr

/-- A packet register bank (R21). -/
structure Bank where
  /-- `TYPE`: 0 before a type is set, 1 DATA, 2 ACK, 3 NACK (R22). -/
  type : BitVec 2
  /-- `TR`, the truncated flag (R23). -/
  tr : BitVec 1
  /-- `WIN` (R24). -/
  win : BitVec 5
  /-- `LEN` (R25). -/
  len : BitVec 15
  /-- `SEQ` (R26). -/
  seq : Byte
  /-- `TS` (R27). -/
  ts : Word
  /-- `CRC1` (R28). -/
  crc1 : Word
  /-- `CRC2` (R29). -/
  crc2 : Word
  /-- `PV`, payload present (R31). -/
  pv : Bool
  /-- `PLEN`, the number of valid bytes in the payload store (R32). -/
  plen : BitVec 10
  /-- `PL`, the payload store, indexed 0 to 511 (R30). -/
  pl : Memory
  deriving DecidableEq, Repr

/-- The response registers (R34). -/
structure Rsp where
  /-- `RSP.ST` -/
  st : Status
  /-- `RSP.R0` -/
  r0 : Word
  /-- `RSP.R1` -/
  r1 : Half
  deriving DecidableEq, Repr

/-- What the host drives at the input ports (R38) while the block performs one step. -/
inductive Input where
  /-- `cmd_valid` and `rst` are low: no command is presented. -/
  | idle
  /-- `rst` is high at a rising edge of `clk` (R310). It also stands for an operation that `rst` abandons, which
  "leaves nothing a model needs to describe" (R311). -/
  | rst
  /-- `cmd_valid` is high with this command word (R38). -/
  | command (w : Cmd)
  deriving DecidableEq, Repr

/-- The state of the block, with the host's side of the command port. -/
structure State where
  /-- `P[0]` (R20). -/
  p0 : Bank
  /-- `P[1]` (R20). -/
  p1 : Bank
  /-- `RSP` (R34). -/
  rsp : Rsp
  /-- `BM`: the bytes written since reset (R60, R62). -/
  bm : Memory
  /-- The open parameters of this build, which no step reads as state or changes (R8, R37). -/
  params : Config.Params
  /-- What the host will drive at the input ports, next step first (R38, R39). -/
  inputs : List Input
  /-- How many resets there have been: the counter the free values depend on, since reset makes the memories
  unspecified again (R62, R310). -/
  resets : Nat
  /-- The output port `rsp_valid`: the last step completed an operation (R38). -/
  rspValid : Bool
  deriving DecidableEq, Repr

/-- A bank after reset (R45): all fields zero, the payload absent, no payload byte written. -/
def Bank.reset : Bank where
  type := 0
  tr := 0
  win := 0
  len := 0
  seq := 0
  ts := 0
  crc1 := 0
  crc2 := 0
  pv := false
  plen := 0
  pl := []

/-- The response registers after reset (R45): `(Ok, 0, 0)`. -/
def Rsp.reset : Rsp := { st := .ok, r0 := 0, r1 := 0 }

/-- The block right after reset (R45, R310, R312), built with the default parameters (R8): no byte of a memory
written, and no command presented. -/
def State.reset : State where
  p0 := Bank.reset
  p1 := Bank.reset
  rsp := Rsp.reset
  bm := []
  params := Config.Params.default
  inputs := []
  resets := 0
  rspValid := false

/-- Why the machine stops with a fault. There is no reason: "The step function is total: every 64-bit command
word in every state yields a next state whose `RSP` says what happened" (R44), and "Nothing in this block is
`stuck`" (93_implementation_defined.md). A failure is a next state with a status (R292). -/
inductive Fault where
  deriving DecidableEq, Repr

/-- Why the model has no meaning for an instruction. -/
inductive Refusal where
  /-- Raised by an arm of `exec` whose instruction has no meaning yet. Safe: nothing is claimed of it. No arm
  raises it now. -/
  | notModelled (mnemonic : String)
  deriving DecidableEq, Repr

end Sys2Proof.Machine
end

