-- ==== Sys2Proof/Machine/Ops.lean ====
section
/-! DEFINITION. The named operations over memory, banks and response registers that every meaning is written
with: reading and writing bytes (00_scope.md R14), ending an operation (R36, R292), and reset (R310). -/

namespace Sys2Proof.Machine

/-! ### Memories -/

/-- The byte written at an address since reset, if one was. -/
def Memory.get? : Memory → Nat → Option Byte
  | [], _ => none
  | (x, v) :: rest, a => if x = a then some v else Memory.get? rest a

/-- Write one byte, keeping the addresses rising. -/
def Memory.set : Memory → Nat → Byte → Memory
  | [], a, v => [(a, v)]
  | (x, u) :: rest, a, v =>
    if a < x then (a, v) :: (x, u) :: rest
    else if x = a then (a, v) :: rest
    else (x, u) :: Memory.set rest a v

/-- Write bytes at consecutive ascending addresses from `a` (R68). -/
def Memory.setBytes : Memory → Nat → List Byte → Memory
  | m, _, [] => m
  | m, a, v :: rest => Memory.setBytes (Memory.set m a v) (a + 1) rest

/-- The `n` bytes that `f` gives at `a`, `a + 1`, ..., first byte first. -/
def slice (f : Nat → Byte) : Nat → Nat → List Byte
  | _, 0 => []
  | a, n + 1 => f a :: slice f (a + 1) n

/-! ### Banks -/

/-- The bank an operation names (R20). -/
def State.bank (s : State) : BankId → Bank
  | .p0 => s.p0
  | .p1 => s.p1

/-- Replace one bank; the other is left alone (R171). -/
def State.setBank (s : State) (k : BankId) (b : Bank) : State :=
  match k with
  | .p0 => { s with p0 := b }
  | .p1 => { s with p1 := b }

/-- The number of a bank. -/
def BankId.number : BankId → Nat
  | .p0 => 0
  | .p1 => 1

/-! ### The buffer memory and the payload stores -/

/-- `BM[a]` (R14): the byte last written there, or the unspecified but stable value it has had since reset
(R62, R70, R75). -/
def State.bmByte (s : State) (a : Nat) : Byte :=
  match s.bm.get? a with
  | some v => v
  | none => Config.bmUnwritten s.resets a

/-- `P[k].PL[i]` (R30): the byte last written there, or an unspecified value (R32, R45). -/
def State.plByte (s : State) (k : BankId) (i : Nat) : Byte :=
  match (s.bank k).pl.get? i with
  | some v => v
  | none => Config.plUnwritten s.resets (BankId.number k) i

/-- `MemRead(addr, n)` (R14). -/
def State.memRead (s : State) (addr n : Nat) : List Byte := slice s.bmByte addr n

/-- `MemWrite(addr, n, bytes)` (R14), `n` being the number of bytes. -/
def State.memWrite (s : State) (addr : Nat) (bytes : List Byte) : State :=
  { s with bm := s.bm.setBytes addr bytes }

/-! ### The end of an operation -/

/-- Drive the response: every operation writes all three response registers (R34) and pulses `rsp_valid` (R38). -/
def State.respond (s : State) (r : Rsp) : State := { s with rsp := r, rspValid := true }

/-- `return Ok(r0, r1)` (R36). The counts `r1` are given as numbers and kept in 16 bits. -/
def State.ok (s : State) (r0 : Word) (r1 : Nat) : State :=
  s.respond { st := .ok, r0 := r0, r1 := BitVec.ofNat 16 r1 }

/-- `raise K` (R15, R36, R292): the block's only form of exception. The status takes the kind, both result
registers become zero and no other state changes. No state is saved and control goes nowhere, so there is no
return from it (R294). -/
def State.raise (s : State) (kind : Status) : State :=
  s.respond { st := kind, r0 := 0, r1 := 0 }

/-! ### Reset and the command port -/

/-- `rst` high at a rising edge (R310): both banks and the response registers take the values of R45, and the
memories are "unspecified from then on, whatever they were before", so that nothing written counts any more and
the free values are those of a new reset. -/
def State.applyReset (s : State) : State :=
  { s with
    p0 := Bank.reset
    p1 := Bank.reset
    rsp := Rsp.reset
    bm := []
    resets := s.resets + 1
    rspValid := false }

/-- A step in which no command is presented: "between commands the block is idle with all state retained"
(R299). Only the pulse on `rsp_valid` ends. -/
def State.idle (s : State) : State := { s with rspValid := false }

/-- The host has driven its next input. -/
def State.dropInput (s : State) : State := { s with inputs := s.inputs.tail }

end Sys2Proof.Machine
end

