-- ==== Sys2Proof/Machine/Operands.lean ====
section
/-! DEFINITION. What operands mean: the range check of every operation that names bytes of the buffer memory, the
narrowing of an operand into a field, and the widening of a field into a response (20_memory.md R72, 30_encoding.md
R106, R107). Every operand is an unsigned number, and sums are exact integers (00_scope.md R12). -/

namespace Sys2Proof.Machine

/-- The range check of R72: the declared extent `[base, base + n)` lies inside the buffer memory. -/
def State.inRange (s : State) (base : Half) (n : Nat) : Bool := base.toNat + n ≤ s.params.bmSize

/-- A field, zero-extended, as a result value (R36, R107, R189). -/
def resultOf {w : Nat} (field : BitVec w) : Word := field.zeroExtend 32

/-- `SETTYPE` stores `t[1:0]` (R107). -/
def narrowType (t : Byte) : BitVec 2 := t.extractLsb' 0 2

/-- `SETTR` stores `tr[0]` (R107). -/
def narrowTr (tr : Byte) : BitVec 1 := tr.extractLsb' 0 1

/-- `SETWIN` stores `w[4:0]` (R107). -/
def narrowWin (w : Byte) : BitVec 5 := w.extractLsb' 0 5

/-- `SETLEN` stores `len[14:0]`, and so does `SETPAY` (R107, R180). -/
def narrowLen (len : Half) : BitVec 15 := len.extractLsb' 0 15

/-- `SETPAY` stores its count, at most 512, in the 10 bits of `PLEN` (R21, R180). -/
def narrowPlen (len : Nat) : BitVec 10 := BitVec.ofNat 10 len

/-! ### Multi-byte fields of a frame (R14, R64) -/

/-- `be32(v)`: most significant byte first. -/
def be32 (v : Word) : List Byte :=
  [v.extractLsb' 24 8, v.extractLsb' 16 8, v.extractLsb' 8 8, v.extractLsb' 0 8]

/-- `from_be32` of the four bytes that `f` gives from offset `i`. -/
def fromBe32 (f : Nat → Byte) (i : Nat) : Word := f i ++ f (i + 1) ++ f (i + 2) ++ f (i + 3)

/-- Byte 0 of a frame: `(type << 6) | (truncated << 5) | window` (R97). -/
def byte0 (t : BitVec 2) (r : BitVec 1) (w : BitVec 5) : Byte := t ++ r ++ w

/-- The type bits of byte 0 (R97). -/
def byte0Type (x : Byte) : BitVec 2 := x.extractLsb' 6 2

/-- The truncated bit of byte 0 (R97). -/
def byte0Tr (x : Byte) : BitVec 1 := x.extractLsb' 5 1

/-- The window bits of byte 0 (R97). -/
def byte0Win (x : Byte) : BitVec 5 := x.extractLsb' 0 5

/-- Byte 0 with the truncated bit forced to 0: `byte0 & 0xDF` (R97). -/
def maskTr (x : Byte) : Byte := x &&& 0xDF

/-- A header with its first byte masked (R218, R239). -/
def maskHeader : List Byte → List Byte
  | [] => []
  | x :: rest => maskTr x :: rest

end Sys2Proof.Machine
end

