-- ==== Sys2Proof/Machine/Buffer.lean ====
section
/-! DEFINITION. Host access to the buffer memory (45_buffer_access.md): `BMWR` and `BMRD`. -/

namespace Sys2Proof.Machine

/-- `BMWR addr, byte` (R260). -/
def execBmwr (addr : Half) (byte : Byte) (s : State) : Host.Outcome State Fault Refusal :=
  .next (
    if !s.inRange addr 1 then s.raise .addressError
    else (s.memWrite addr.toNat [byte]).ok 0 1)

/-- `BMRD addr` (R261). -/
def execBmrd (addr : Half) (s : State) : Host.Outcome State Fault Refusal :=
  .next (
    if !s.inRange addr 1 then s.raise .addressError
    else s.ok (resultOf (s.bmByte addr.toNat)) 1)

end Sys2Proof.Machine
end

