-- ==== Sys2Proof/Machine/Crc.lean ====
section
/-! DEFINITION. The unit `crc32_gen` (41_crc32_gen.md): the function, the two engines and the operation `CRC32`. -/

namespace Sys2Proof.Machine

/-- One of the eight bit steps of R152: shift right, and exclusive-or with the reflected polynomial when a 1
falls out. -/
def crcBit (acc : Word) : Word :=
  if acc.extractLsb' 0 1 = 1 then (acc >>> 1) ^^^ 0xEDB88320 else acc >>> 1

/-- Bit steps, repeated. -/
def crcBits : Nat → Word → Word
  | 0, acc => acc
  | n + 1, acc => crcBits n (crcBit acc)

/-- One byte of input (R152). -/
def crcByte (acc : Word) (x : Byte) : Word := crcBits 8 (acc ^^^ x.zeroExtend 32)

/-- The accumulator over the bytes, first to last (R152). -/
def crcAcc : Word → List Byte → Word
  | acc, [] => acc
  | acc, x :: rest => crcAcc (crcByte acc x) rest

/-- The default `CRC32`, CRC-32/ISO-HDLC (R151, R152). -/
def crc32IsoHdlc (s : List Byte) : Word := crcAcc 0xFFFFFFFF s ^^^ 0xFFFFFFFF

/-- `CRC32` of this build (R150): one function for every checksum in the block. -/
def crc32Of : Config.Crc32Choice → List Byte → Word
  | .isoHdlc, s => crc32IsoHdlc s
  | .other n, s => Config.crc32Other n s

/-- A computation on an engine (R154, R155). Both engines compute `CRC32`; each starts afresh and keeps nothing
(R41), so which engine runs is not observable. -/
def State.crc (s : State) (_engine : Engine) (bytes : List Byte) : Word := crc32Of s.params.crc32 bytes

/-- `CRC32 e, base, len` (R156). -/
def execCrc32 (e : Engine) (base len : Half) (s : State) : Host.Outcome State Fault Refusal :=
  .next (
    if !s.inRange base len.toNat then s.raise .addressError
    else s.ok (s.crc e (s.memRead base.toNat len.toNat)) len.toNat)

end Sys2Proof.Machine
end

