-- ==== Sys2Proof/Machine/Flags.lean ====
section
/-! DEFINITION. The flag-like state and the tests on it: the status codes (60_exceptions.md R270), the checks of
the type and the truncated flag that setters and decoder share (R172, R173, R233), the presence of a payload (R31,
R33) and the output ports (R38). -/

namespace Sys2Proof.Machine

/-- The code of a status in the four bits of `RSP.ST` (R270). -/
def Status.code : Status → BitVec 4
  | .ok => 0
  | .invalidType => 1
  | .invalidTruncationFlag => 2
  | .invalidWindow => 3
  | .invalidLength => 4
  | .payloadTooLarge => 5
  | .bufferTooSmall => 6
  | .headerTooShort => 7
  | .checksumMismatch => 8
  | .inconsistentLength => 9
  | .addressError => 14
  | .illegalCommand => 15

/-- `set_type` accepts DATA, ACK and NACK (R172). -/
def typeAccepted (t : Nat) : Bool := t = 1 || t = 2 || t = 3

/-- `set_truncated` accepts 0, and 1 when the current type is DATA (R173). -/
def truncatedAccepted (tr : Nat) (current : BitVec 2) : Bool :=
  tr = 0 || (tr = 1 && current = Config.typeData)

/-- `EPL(k)`, the effective payload length: "`P[k].PLEN if P[k].PV == 1 else 0`" (R33). -/
def Bank.epl (b : Bank) : Nat := if b.pv then b.plen.toNat else 0

/-- A bank is length-consistent when `LEN == EPL` (R33). -/
def Bank.lengthConsistent (b : Bank) : Bool := b.len.toNat = b.epl

/-- The output ports (R38). -/
structure OutPorts where
  cmdReady : Bool
  rspValid : Bool
  rspStatus : BitVec 4
  rspR0 : Word
  rspR1 : Half
  deriving DecidableEq, Repr

/-- The host holds `rst` high. -/
def State.rstHigh (s : State) : Bool := s.inputs.head? == some .rst

/-- The output ports between two operations (R38): the block is ready for a command, the response registers
drive the response port, and "While `rst` is high, `cmd_ready` and `rsp_valid` are low" (R310). -/
def State.outPorts (s : State) : OutPorts where
  cmdReady := !s.rstHigh
  rspValid := s.rspValid && !s.rstHigh
  rspStatus := s.rsp.st.code
  rspR0 := s.rsp.r0
  rspR1 := s.rsp.r1

end Sys2Proof.Machine
end

