-- ==== Sys2Proof/Machine/Varint.lean ====
section
/-! DEFINITION. The unit `varint_codec` (40_varint_codec.md): its three functions and the operations `VPREDICT`,
`VENCODE` and `VDECODE`. -/

namespace Sys2Proof.Machine

/-- `vpredict` (R130): the width of the varint form of a value, none when it is unrepresentable. -/
def vpredict (v : Half) : Option Nat :=
  if v.toNat ≤ Config.varMax1 then some 1
  else if v.toNat ≤ Config.varMax2 then some 2
  else none

/-- `venc` (R130): `[v]` up to 127, else `[0x80 | (v >> 8), v & 0xFF]`. -/
def venc (v : BitVec 15) : List Byte :=
  if v.toNat ≤ Config.varMax1 then [v.extractLsb' 0 8]
  else [1#1 ++ v.extractLsb' 8 7, v.extractLsb' 0 8]

/-- `vdec` (R130): the value and the number of bytes consumed, none when the bytes end too early. A 2-byte form
that carries a value below 128 is accepted (R104). -/
def vdec : List Byte → Option (BitVec 15 × Nat)
  | [] => none
  | x :: rest =>
    if x.extractLsb' 7 1 = 0 then some ((x &&& 0x7F).zeroExtend 15, 1)
    else
      match rest with
      | [] => none
      | y :: _ => some (x.extractLsb' 0 7 ++ y, 2)

/-- `VPREDICT value` (R131). -/
def execVpredict (value : Half) (s : State) : Host.Outcome State Fault Refusal :=
  .next (match vpredict value with
    | none => s.raise .invalidLength
    | some w => s.ok 0 w)

/-- `VENCODE value, base, cap` (R132): the range, then the value, then the capacity. -/
def execVencode (value base cap : Half) (s : State) : Host.Outcome State Fault Refusal :=
  .next (
    if !s.inRange base cap.toNat then s.raise .addressError
    else
      match vpredict value with
      | none => s.raise .invalidLength
      | some w =>
        if cap.toNat < w then s.raise .bufferTooSmall
        else (s.memWrite base.toNat (venc (narrowLen value))).ok 0 w)

/-- `VDECODE base, avail` (R135). -/
def execVdecode (base avail : Half) (s : State) : Host.Outcome State Fault Refusal :=
  .next (
    if !s.inRange base avail.toNat then s.raise .addressError
    else
      match vdec (s.memRead base.toNat avail.toNat) with
      | none => s.raise .headerTooShort
      | some (v, w) => s.ok (resultOf v) w)

end Sys2Proof.Machine
end

