-- ==== Sys2Proof/Machine/Fields.lean ====
section
/-! DEFINITION. The packet entity and its validated accessors (42_packet_fields.md): `PCLEAR`, the setters and the
getters. A setter that fails changes nothing but the response (R171); none touches the other bank. -/

namespace Sys2Proof.Machine

/-! ### Construction -/

/-- `PCLEAR k` (R170). The bytes of `PL` are untouched and unreadable. -/
def execPclear (k : BankId) (s : State) : Host.Outcome State Fault Refusal :=
  .next ((s.setBank k { Bank.reset with pl := (s.bank k).pl }).ok 0 0)

/-! ### Setters -/

/-- `SETTYPE k, t` (R172): the whole operand is compared, and `TR` is not looked at. -/
def execSettype (k : BankId) (t : Byte) (s : State) : Host.Outcome State Fault Refusal :=
  .next (
    if !typeAccepted t.toNat then s.raise .invalidType
    else (s.setBank k { s.bank k with type := narrowType t }).ok 0 0)

/-- `SETTR k, tr` (R173): the test is against the type the bank has now. -/
def execSettr (k : BankId) (tr : Byte) (s : State) : Host.Outcome State Fault Refusal :=
  .next (
    if !truncatedAccepted tr.toNat (s.bank k).type then s.raise .invalidTruncationFlag
    else (s.setBank k { s.bank k with tr := narrowTr tr }).ok 0 0)

/-- `SETWIN k, w` (R174). -/
def execSetwin (k : BankId) (w : Byte) (s : State) : Host.Outcome State Fault Refusal :=
  .next (
    if w.toNat > Config.winMax then s.raise .invalidWindow
    else (s.setBank k { s.bank k with win := narrowWin w }).ok 0 0)

/-- `SETLEN k, len` (R175), with the check that the document keeps although it can never fire. -/
def execSetlen (k : BankId) (len : Half) (s : State) : Host.Outcome State Fault Refusal :=
  .next (
    if len.toNat > Config.lenCap then s.raise .invalidLength
    else
      match vpredict len with
      | none => s.raise .invalidLength
      | some _ => (s.setBank k { s.bank k with len := narrowLen len }).ok 0 0)

/-- `SETSEQ k, s` (R176). -/
def execSetseq (k : BankId) (sq : Byte) (s : State) : Host.Outcome State Fault Refusal :=
  .next ((s.setBank k { s.bank k with seq := sq }).ok 0 0)

/-- `SETTS k, t` (R177). -/
def execSetts (k : BankId) (t : Word) (s : State) : Host.Outcome State Fault Refusal :=
  .next ((s.setBank k { s.bank k with ts := t }).ok 0 0)

/-- `SETCRC1 k, c` (R178). -/
def execSetcrc1 (k : BankId) (c : Word) (s : State) : Host.Outcome State Fault Refusal :=
  .next ((s.setBank k { s.bank k with crc1 := c }).ok 0 0)

/-- `SETCRC2 k, c` (R179). -/
def execSetcrc2 (k : BankId) (c : Word) (s : State) : Host.Outcome State Fault Refusal :=
  .next ((s.setBank k { s.bank k with crc2 := c }).ok 0 0)

/-- Assign a payload to a bank, as `set_payload` does (R180, R241): copy the bytes in, and set `PLEN`, `PV` and
`LEN`. The caller has checked that there are at most 512 bytes. -/
def Bank.assignPayload (b : Bank) (bytes : List Byte) : Bank :=
  { b with
    pl := b.pl.setBytes 0 bytes
    plen := narrowPlen bytes.length
    pv := true
    len := BitVec.ofNat 15 bytes.length }

/-- `SETPAY k, base, len` (R180): the range, then the size. -/
def execSetpay (k : BankId) (base len : Half) (s : State) : Host.Outcome State Fault Refusal :=
  .next (
    if !s.inRange base len.toNat then s.raise .addressError
    else if len.toNat > Config.lenCap then s.raise .payloadTooLarge
    else
      (s.setBank k ((s.bank k).assignPayload (s.memRead base.toNat len.toNat))).ok 0 len.toNat)

/-! ### Getters -/

/-- A getter that answers one field, zero-extended, and changes no packet state (R189). -/
def State.answer {w : Nat} (s : State) (field : BitVec w) : State := s.ok (resultOf field) 0

/-- `GETTYPE k` (R190). -/
def execGettype (k : BankId) (s : State) : Host.Outcome State Fault Refusal :=
  .next (s.answer (s.bank k).type)

/-- `GETTR k` (R191). -/
def execGettr (k : BankId) (s : State) : Host.Outcome State Fault Refusal :=
  .next (s.answer (s.bank k).tr)

/-- `GETWIN k` (R192). -/
def execGetwin (k : BankId) (s : State) : Host.Outcome State Fault Refusal :=
  .next (s.answer (s.bank k).win)

/-- `GETLEN k` (R193). -/
def execGetlen (k : BankId) (s : State) : Host.Outcome State Fault Refusal :=
  .next (s.answer (s.bank k).len)

/-- `GETSEQ k` (R194). -/
def execGetseq (k : BankId) (s : State) : Host.Outcome State Fault Refusal :=
  .next (s.answer (s.bank k).seq)

/-- `GETTS k` (R195). -/
def execGetts (k : BankId) (s : State) : Host.Outcome State Fault Refusal :=
  .next (s.answer (s.bank k).ts)

/-- `GETCRC1 k` (R196). -/
def execGetcrc1 (k : BankId) (s : State) : Host.Outcome State Fault Refusal :=
  .next (s.answer (s.bank k).crc1)

/-- `GETCRC2 k` (R197). -/
def execGetcrc2 (k : BankId) (s : State) : Host.Outcome State Fault Refusal :=
  .next (s.answer (s.bank k).crc2)

/-- The first `n` bytes of a bank's payload store: `P[k].PL[0 .. n-1]`. -/
def State.plRead (s : State) (k : BankId) (n : Nat) : List Byte := slice (s.plByte k) 0 n

/-- `GETPAY k, base` (R198): copy the stored payload out, and say whether there is one. -/
def execGetpay (k : BankId) (base : Half) (s : State) : Host.Outcome State Fault Refusal :=
  .next (
    let n := (s.bank k).epl
    if !s.inRange base n then s.raise .addressError
    else if !(s.bank k).pv then s.ok 0 0
    else (s.memWrite base.toNat (s.plRead k n)).ok 1 n)

end Sys2Proof.Machine
end

