-- ==== Sys2Proof/Machine/Encoder.lean ====
section
/-! DEFINITION. The unit `packet_encoder` (43_packet_encoder.md): the operation `PENC`. It reads one bank, writes no
packet field, and either writes the whole frame or nothing (R214, R222). -/

namespace Sys2Proof.Machine

/-- The header of a frame, byte 0 to the end of the timestamp (steps 3 to 5 of R210: R215, R216, R217). -/
def Bank.header (b : Bank) : List Byte :=
  [byte0 b.type b.tr b.win] ++ venc b.len ++ [b.seq] ++ be32 b.ts

/-- The bytes the encoder computes CRC1 over (step 6, R218): the header as emitted, or with its truncated bit
cleared when the build masks. -/
def State.crc1Input (s : State) (k : BankId) : List Byte :=
  if s.params.encMaskTr then maskHeader (s.bank k).header else (s.bank k).header

/-- The frame of a bank (R210, R96): header, CRC1 by engine `E0`, `LEN` payload bytes, CRC2 by engine `E1`. -/
def State.frame (s : State) (k : BankId) : List Byte :=
  let payload := s.plRead k (s.bank k).len.toNat
  (s.bank k).header ++ be32 (s.crc .e0 (s.crc1Input k)) ++ payload ++ be32 (s.crc .e1 payload)

/-- `hl = 6 + w`, the header length (R99). -/
def headerLength (w : Nat) : Nat := Config.hdrFixed + w

/-- `hl + 8 + L`, the size of a whole frame (R99). -/
def frameSize (w len : Nat) : Nat := headerLength w + Config.trailer + len

/-- `PENC k, base, cap` (R210): the range, the length, the length against the stored payload, the capacity. -/
def execPenc (k : BankId) (base cap : Half) (s : State) : Host.Outcome State Fault Refusal :=
  .next (
    if !s.inRange base cap.toNat then s.raise .addressError
    else
      match vpredict ((s.bank k).len.zeroExtend 16) with
      | none => s.raise .invalidLength
      | some w =>
        let total := frameSize w (s.bank k).len.toNat
        if !(s.bank k).lengthConsistent then s.raise .invalidLength
        else if cap.toNat < total then s.raise .bufferTooSmall
        else (s.memWrite base.toNat (s.frame k)).ok 0 total)

end Sys2Proof.Machine
end

