-- ==== Sys2Proof/Machine/Decoder.lean ====
section
/-! DEFINITION. The unit `packet_decoder` (44_packet_decoder.md): the operation `PDEC`. It builds a shadow packet from
the input bytes and commits it to the bank when every check has passed (R243). -/

namespace Sys2Proof.Machine

/-- The shadow packet: what the decoder has read, with the payload when it extracted one (R230, R243). -/
structure Shadow where
  type : BitVec 2
  tr : BitVec 1
  win : BitVec 5
  len : BitVec 15
  seq : Byte
  ts : Word
  crc1 : Word
  /-- CRC2 and the payload bytes, when the payload was extracted (R241, R242). -/
  body : Option (Word × List Byte)
  /-- The size reported in `RSP.R1` (R243). -/
  size : Nat
  deriving DecidableEq, Repr

/-- Steps 7 to 9 of R230, once the header checksum has passed: the size check, then payload and CRC2 of an
untruncated DATA frame, then nothing for the others. `crc` is the payload engine's function. -/
def decodeBody (crc : List Byte → Word) (n : Nat) (f : Nat → Byte) (hl len : Nat) (type : BitVec 2)
    (tr : BitVec 1) : Except Status (Option (Word × List Byte)) :=
  if tr = 0 ∧ len + hl + Config.trailer > n then .error .inconsistentLength
  else if tr = 0 ∧ type = Config.typeData then
    let payload := slice f (hl + 4) len
    let crc2 := fromBe32 f (hl + 4 + len)
    if crc payload ≠ crc2 then .error .checksumMismatch else .ok (some (crc2, payload))
  else .ok none

/-- Steps 4 to 9 of R230, once the length is known with the width `w` it took on the wire (R237): the rest of the
header, the header checksum with the truncated bit forced to 0 (R239), then the body. -/
def decodeRest (crc1 crc2 : List Byte → Word) (n : Nat) (f : Nat → Byte) (len : BitVec 15) (w : Nat) :
    Except Status Shadow :=
  let hl := headerLength w
  let x := f 0
  if n < hl + 4 then .error .checksumMismatch
  else if crc1 (maskHeader (slice f 0 hl)) ≠ fromBe32 f hl then .error .checksumMismatch
  else
    match decodeBody crc2 n f hl len.toNat (byte0Type x) (byte0Tr x) with
    | .error kind => .error kind
    | .ok body =>
      .ok { type := byte0Type x, tr := byte0Tr x, win := byte0Win x, len := len,
            seq := f (1 + w), ts := fromBe32 f (2 + w), crc1 := fromBe32 f hl, body := body,
            size := if byte0Tr x = 0 then hl + Config.trailer + len.toNat else hl + 4 }

/-- The decoder's pipeline (R230) over an input of `n` bytes, `f i` being the byte at offset `i`: the floors
(R231), byte 0 through the checks of the setters (R233), the length (R236), then the rest. -/
def decodeFrame (crc1 crc2 : List Byte → Word) (n : Nat) (f : Nat → Byte) : Except Status Shadow :=
  if n < Config.minHdr then .error .headerTooShort
  else if n < Config.minCrc then .error .checksumMismatch
  else if !typeAccepted (byte0Type (f 0)).toNat then .error .invalidType
  else if !truncatedAccepted (byte0Tr (f 0)).toNat (byte0Type (f 0)) then .error .invalidTruncationFlag
  else
    match vdec (slice f 1 (n - 1)) with
    | none => .error .invalidLength
    | some (len, w) =>
      if len.toNat > Config.lenCap then .error .invalidLength
      else decodeRest crc1 crc2 n f len w

/-- Step 10 of R230: every field of the bank at once. The payload bytes are copied in when there are some, and
otherwise the payload is absent and `CRC2` is zero (R242). -/
def Bank.commit (b : Bank) (d : Shadow) : Bank :=
  { type := d.type
    tr := d.tr
    win := d.win
    len := d.len
    seq := d.seq
    ts := d.ts
    crc1 := d.crc1
    crc2 := match d.body with
      | some (c, _) => c
      | none => 0
    pv := d.body.isSome
    plen := match d.body with
      | some (_, bytes) => narrowPlen bytes.length
      | none => 0
    pl := match d.body with
      | some (_, bytes) => b.pl.setBytes 0 bytes
      | none => b.pl }

/-- `PDEC k, base, len` (R230): the range, then the pipeline with CRC1 on engine `E0` and CRC2 on engine `E1`. The
buffer memory is only read, and a failure leaves the bank exactly as it was (R243, R250). -/
def execPdec (k : BankId) (base len : Half) (s : State) : Host.Outcome State Fault Refusal :=
  .next (
    if !s.inRange base len.toNat then s.raise .addressError
    else
      match decodeFrame (s.crc .e0) (s.crc .e1) len.toNat (fun i => s.bmByte (base.toNat + i)) with
      | .error kind => s.raise kind
      | .ok d => (s.setBank k ((s.bank k).commit d)).ok 0 d.size)

end Sys2Proof.Machine
end

