-- ==== Sys2Proof/Machine/Wire.lean ====
section
/-! DEFINITION. What the block does with the bits of a wire row when the host presents them as a command. The three
wire rows of the opcode table are layouts inside a frame (30_encoding.md Part B); the 27 operations are those of
R93. As a command word, a row's 8 or 16 bits have opcode 0x00, which is reserved (R113), and a word that is no
operation completes with `IllegalCommand` (R116). The layouts themselves are modelled where the codec uses them:
`venc`, `vdec`, `byte0` and their inverses. See notes/assumptions/8. -/

namespace Sys2Proof.Machine

/-- A word that is not an operation (R116): "`RSP <- (15, 0, 0)` and no other state changes". -/
def State.notAnOperation (s : State) : State := s.raise .illegalCommand

/-- WIRE.VARINT1 as a command word (R113, R116). -/
def execWireVarint1 (_v : BitVec 7) (s : State) : Host.Outcome State Fault Refusal :=
  .next s.notAnOperation

/-- WIRE.VARINT2 as a command word (R113, R116). -/
def execWireVarint2 (_v : BitVec 15) (s : State) : Host.Outcome State Fault Refusal :=
  .next s.notAnOperation

/-- WIRE.BYTE0 as a command word (R113, R116). -/
def execWireByte0 (_t : BitVec 2) (_r : BitVec 1) (_w : BitVec 5) (s : State) :
    Host.Outcome State Fault Refusal :=
  .next s.notAnOperation

end Sys2Proof.Machine
end

