-- ==== Sys2Proof/Machine/Dispatch.lean ====
section
/-! DEFINITION. The meaning of each instruction, one arm per constructor. -/

namespace Sys2Proof.Machine

def exec (i : Instr) (s : State) : Host.Outcome State Fault Refusal :=
  match i with
  | .vpredict value => Sys2Proof.Machine.execVpredict value s
  | .vencode value base cap => Sys2Proof.Machine.execVencode value base cap s
  | .vdecode base avail => Sys2Proof.Machine.execVdecode base avail s
  | .crc32 e base len => Sys2Proof.Machine.execCrc32 e base len s
  | .pclear k => Sys2Proof.Machine.execPclear k s
  | .settype k t => Sys2Proof.Machine.execSettype k t s
  | .settr k tr => Sys2Proof.Machine.execSettr k tr s
  | .setwin k w => Sys2Proof.Machine.execSetwin k w s
  | .setlen k len => Sys2Proof.Machine.execSetlen k len s
  | .setseq k sq => Sys2Proof.Machine.execSetseq k sq s
  | .setts k t => Sys2Proof.Machine.execSetts k t s
  | .setcrc1 k c => Sys2Proof.Machine.execSetcrc1 k c s
  | .setcrc2 k c => Sys2Proof.Machine.execSetcrc2 k c s
  | .setpay k base len => Sys2Proof.Machine.execSetpay k base len s
  | .gettype k => Sys2Proof.Machine.execGettype k s
  | .gettr k => Sys2Proof.Machine.execGettr k s
  | .getwin k => Sys2Proof.Machine.execGetwin k s
  | .getlen k => Sys2Proof.Machine.execGetlen k s
  | .getseq k => Sys2Proof.Machine.execGetseq k s
  | .getts k => Sys2Proof.Machine.execGetts k s
  | .getcrc1 k => Sys2Proof.Machine.execGetcrc1 k s
  | .getcrc2 k => Sys2Proof.Machine.execGetcrc2 k s
  | .getpay k base => Sys2Proof.Machine.execGetpay k base s
  | .penc k base cap => Sys2Proof.Machine.execPenc k base cap s
  | .pdec k base len => Sys2Proof.Machine.execPdec k base len s
  | .bmwr addr byte => Sys2Proof.Machine.execBmwr addr byte s
  | .bmrd addr => Sys2Proof.Machine.execBmrd addr s
  | .wireVarint1 v => Sys2Proof.Machine.execWireVarint1 v s
  | .wireVarint2 v => Sys2Proof.Machine.execWireVarint2 v s
  | .wireByte0 t r w => Sys2Proof.Machine.execWireByte0 t r w s

end Sys2Proof.Machine
end

