-- ==== Sys2Proof/Machine/Fetch.lean ====
section
/-! DEFINITION. What a command word does. The block fetches nothing from memory (10_state.md R40, 20_memory.md R78):
a word comes from the host, and here it meets the decoder. -/

namespace Sys2Proof.Machine

/-- One command word (R39, R44): the operation it selects, or `IllegalCommand` when it selects none (R116). -/
def runCommand (w : Cmd) (s : State) : Host.Outcome State Fault Refusal :=
  match decode (.command w) with
  | .ok i => exec i s
  | .error _ => .next s.notAnOperation

/-- A command word of fewer than 64 bits is presented with its other bits zero. -/
def presented (nbits w : Nat) : Input := .command (BitVec.ofNat 64 (w % 2 ^ nbits))

end Sys2Proof.Machine
end

