-- ==== Sys2Proof/Machine/Step.lean ====
section
/-! DEFINITION. One step of the block: it takes what the host drives next at the input ports (10_state.md R38, R39),
and performs a whole operation, a reset or nothing. -/

namespace Sys2Proof.Machine

/-- One step. With no input left the host presents nothing and the block stays idle (R299). -/
def step (s : State) : Host.Outcome State Fault Refusal :=
  match s.inputs with
  | [] => .next s.idle
  | .idle :: _ => .next s.dropInput.idle
  | .rst :: _ => .next s.dropInput.applyReset
  | .command w :: _ => runCommand w s.dropInput

/-- The host presents this command word next. A word of fewer than 64 bits is presented with its other bits
zero. -/
def State.withFetchWord (s : State) (nbits w : Nat) : State :=
  { s with inputs := presented nbits w :: s.inputs }

end Sys2Proof.Machine
end

