-- ==== Sys2Proof/Safety.lean ====
section
/-! DEFINITION. The words that claims about the block are stated in: the legal states (10_state.md R46), what an
operation leaves unchanged, and which state each operation may touch (20_memory.md R61, 60_exceptions.md R284). -/

namespace Sys2Proof.Machine

/-! ### Legal states -/

/-- The invariant of R46 on one bank, and the canonical form of its payload store with indices 0 to 511 (R30). -/
abbrev Bank.Legal (b : Bank) : Prop :=
  b.len.toNat ≤ 512 ∧ b.plen.toNat ≤ 512 ∧ (b.pv = false → b.plen = 0) ∧
    Memory.wf b.pl ∧ ∀ c ∈ b.pl, c.1 < 512

/-- The invariant of R46 on the response: "`RSP.ST != 0` implies `RSP.R0 == 0` and `RSP.R1 == 0`". -/
abbrev Rsp.Legal (r : Rsp) : Prop := r.st ≠ .ok → r.r0 = 0 ∧ r.r1 = 0

/-- The invariant of the state (R46), with the canonical form of the buffer memory, its bound (R60) and the
constraint on the parameters (R8). -/
abbrev State.Legal (s : State) : Prop :=
  s.p0.Legal ∧ s.p1.Legal ∧ s.rsp.Legal ∧ Memory.wf s.bm ∧ (∀ c ∈ s.bm, c.1 < s.params.bmSize) ∧
    s.params.Allowed

/-! ### What stays -/

/-- The other bank. -/
def other : BankId → BankId
  | .p0 => .p1
  | .p1 => .p0

/-- Every byte of the buffer memory reads as before. -/
def SameBuffer (s t : State) : Prop := ∀ a, t.bmByte a = s.bmByte a

/-- Every byte of the buffer memory outside `[base, base + n)` reads as before. -/
def SameBufferOutside (s t : State) (base n : Nat) : Prop :=
  ∀ a, a < base ∨ base + n ≤ a → t.bmByte a = s.bmByte a

/-- The parameters, the host's coming inputs and the reset counter are as before. -/
def SameBuild (s t : State) : Prop :=
  t.params = s.params ∧ t.inputs = s.inputs ∧ t.resets = s.resets

/-- The response: `(ST, R0, R1)`, with `rsp_valid` pulsed. -/
def Responds (t : State) (st : Status) (r0 : Word) (r1 : Nat) : Prop :=
  t.rsp.st = st ∧ t.rsp.r0 = r0 ∧ t.rsp.r1.toNat = r1 ∧ t.rspValid = true

/-- The operation changed nothing but the response. -/
def OnlyResponds (s t : State) (st : Status) (r0 : Word) (r1 : Nat) : Prop :=
  Responds t st r0 r1 ∧ (∀ k, t.bank k = s.bank k) ∧ SameBuffer s t ∧ SameBuild s t

/-- The operation failed (R292). -/
def Fails (s t : State) (kind : Status) : Prop := OnlyResponds s t kind 0 0

/-- Bank `k` became `b` and, but for the response, nothing else changed. -/
def BankBecomes (s t : State) (k : BankId) (b : Bank) : Prop :=
  t.bank k = b ∧ t.bank (other k) = s.bank (other k) ∧ SameBuffer s t ∧ SameBuild s t

/-- The bytes `f 0 .. f (n-1)` now stand at `[base, base + n)` and, but for the response, nothing else changed. -/
def Stores (s t : State) (base n : Nat) (f : Nat → Byte) : Prop :=
  (∀ i, i < n → t.bmByte (base + i) = f i) ∧ SameBufferOutside s t base n ∧
    (∀ k, t.bank k = s.bank k) ∧ SameBuild s t

/-! ### What an operation may touch -/

/-- The operation may write this bank: `PCLEAR`, the setters and `PDEC` write the bank they name (R22 to R33). -/
def writesBank : Instr → BankId → Bool
  | .pclear k, j | .settype k _, j | .settr k _, j | .setwin k _, j | .setlen k _, j | .setseq k _, j
  | .setts k _, j | .setcrc1 k _, j | .setcrc2 k _, j | .setpay k _ _, j | .pdec k _ _, j => k == j
  | .vpredict _, _ | .vencode _ _ _, _ | .vdecode _ _, _ | .crc32 _ _ _, _ | .gettype _, _ | .gettr _, _
  | .getwin _, _ | .getlen _, _ | .getseq _, _ | .getts _, _ | .getcrc1 _, _ | .getcrc2 _, _
  | .getpay _ _, _ | .penc _ _ _, _ | .bmwr _ _, _ | .bmrd _, _ | .wireVarint1 _, _ | .wireVarint2 _, _
  | .wireByte0 _ _ _, _ => false

/-- The range of the buffer memory that the operation may write, as first address and number of bytes (R61): the
declared range of `BMWR`, `VENCODE` and `PENC`, the stored payload's size for `GETPAY`, none for the others. -/
def writeRange (s : State) : Instr → Nat × Nat
  | .bmwr addr _ => (addr.toNat, 1)
  | .vencode _ base cap => (base.toNat, cap.toNat)
  | .penc _ base cap => (base.toNat, cap.toNat)
  | .getpay k base => (base.toNat, (s.bank k).epl)
  | .vpredict _ | .vdecode _ _ | .crc32 _ _ _ | .pclear _ | .settype _ _ | .settr _ _ | .setwin _ _
  | .setlen _ _ | .setseq _ _ | .setts _ _ | .setcrc1 _ _ | .setcrc2 _ _ | .setpay _ _ _ | .gettype _
  | .gettr _ | .getwin _ | .getlen _ | .getseq _ | .getts _ | .getcrc1 _ | .getcrc2 _ | .pdec _ _ _
  | .bmrd _ | .wireVarint1 _ | .wireVarint2 _ | .wireByte0 _ _ _ => (0, 0)

/-- The range of the buffer memory that the operation may read, as first address and number of bytes (R61): the
declared range, none for the operations that read no byte. -/
def readRange : Instr → Nat × Nat
  | .bmrd addr => (addr.toNat, 1)
  | .vdecode base avail => (base.toNat, avail.toNat)
  | .crc32 _ base len | .setpay _ base len | .pdec _ base len => (base.toNat, len.toNat)
  | .bmwr _ _ | .vencode _ _ _ | .penc _ _ _ | .getpay _ _ | .vpredict _ | .pclear _ | .settype _ _
  | .settr _ _ | .setwin _ _ | .setlen _ _ | .setseq _ _ | .setts _ _ | .setcrc1 _ _ | .setcrc2 _ _
  | .gettype _ | .gettr _ | .getwin _ | .getlen _ | .getseq _ | .getts _ | .getcrc1 _ | .getcrc2 _
  | .wireVarint1 _ | .wireVarint2 _ | .wireByte0 _ _ _ => (0, 0)

/-- The statuses an operation can end with (the table of R284); a wire row's bits are no operation (R116). -/
def allowedStatuses : Instr → List Status
  | .vpredict _ => [.ok, .invalidLength]
  | .vencode _ _ _ => [.ok, .invalidLength, .bufferTooSmall, .addressError]
  | .vdecode _ _ => [.ok, .headerTooShort, .addressError]
  | .crc32 _ _ _ => [.ok, .addressError]
  | .pclear _ | .setseq _ _ | .setts _ _ | .setcrc1 _ _ | .setcrc2 _ _ => [.ok]
  | .settype _ _ => [.ok, .invalidType]
  | .settr _ _ => [.ok, .invalidTruncationFlag]
  | .setwin _ _ => [.ok, .invalidWindow]
  | .setlen _ _ => [.ok, .invalidLength]
  | .setpay _ _ _ => [.ok, .payloadTooLarge, .addressError]
  | .gettype _ | .gettr _ | .getwin _ | .getlen _ | .getseq _ | .getts _ | .getcrc1 _ | .getcrc2 _ => [.ok]
  | .getpay _ _ => [.ok, .addressError]
  | .penc _ _ _ => [.ok, .invalidLength, .bufferTooSmall, .addressError]
  | .pdec _ _ _ => [.ok, .invalidType, .invalidTruncationFlag, .invalidLength, .headerTooShort,
      .checksumMismatch, .inconsistentLength, .addressError]
  | .bmwr _ _ | .bmrd _ => [.ok, .addressError]
  | .wireVarint1 _ | .wireVarint2 _ | .wireByte0 _ _ _ => [.illegalCommand]

/-! ### Frames (30_encoding.md R96) -/

/-- The varint width of a length: 1 up to 127, else 2 (R99, R100). -/
def lengthWidth (len : Nat) : Nat := if len ≤ 127 then 1 else 2

/-- `hl`, the header length of a frame announcing `len` bytes (R99). -/
def headerSize (len : Nat) : Nat := 6 + lengthWidth len

/-- The bytes `f base, f (base + 1), ...` are the frame of a bank `b` with payload bytes `pl`, built with the
checksum function `crc` and, when `mask` is set, with the truncated bit cleared in the input of CRC1 (R96, R210). -/
def IsFrame (crc : List Byte → Word) (mask : Bool) (b : Bank) (pl : Nat → Byte) (f : Nat → Byte) (base : Nat) :
    Prop :=
  let len := b.len.toNat
  let w := lengthWidth len
  let hl := headerSize len
  f base = (b.type.setWidth 8 <<< 6) ||| (b.tr.setWidth 8 <<< 5) ||| b.win.setWidth 8 ∧
    (len ≤ 127 → f (base + 1) = b.len.setWidth 8) ∧
    (128 ≤ len → f (base + 1) = 0x80#8 ||| (b.len >>> 8).setWidth 8 ∧ f (base + 2) = b.len.setWidth 8) ∧
    f (base + 1 + w) = b.seq ∧
    fromBe32 f (base + 2 + w) = b.ts ∧
    fromBe32 f (base + hl) =
      crc (if mask then (f base &&& 0xDF#8) :: slice f (base + 1) (hl - 1) else slice f base hl) ∧
    (∀ i, i < len → f (base + hl + 4 + i) = pl i) ∧
    fromBe32 f (base + hl + 4 + len) = crc (slice pl 0 len)

/-! ### What an input to the decoder announces (R97, R103, R236, R237). `f i` is the byte at offset `i`. -/

/-- The type bits of byte 0. -/
def inType (f : Nat → Byte) : Nat := (f 0).toNat / 64

/-- The truncated bit of byte 0. -/
def inTr (f : Nat → Byte) : Nat := (f 0).toNat / 32 % 2

/-- The window bits of byte 0. -/
def inWin (f : Nat → Byte) : Nat := (f 0).toNat % 32

/-- The width of the length field: bit 7 of its first byte tells it. -/
def inWidth (f : Nat → Byte) : Nat := if (f 1).toNat < 128 then 1 else 2

/-- The value of the length field. -/
def inLen (f : Nat → Byte) : Nat :=
  if (f 1).toNat < 128 then (f 1).toNat else (f 1).toNat % 128 * 256 + (f 2).toNat

/-- The header length by the consumed width. -/
def inHeader (f : Nat → Byte) : Nat := 6 + inWidth f

/-- CRC1 of the frame is that of its header with the truncated bit forced to 0 (R239). -/
abbrev inCrc1Ok (crc : List Byte → Word) (f : Nat → Byte) : Prop :=
  crc ((f 0 &&& 0xDF#8) :: slice f 1 (inHeader f - 1)) = fromBe32 f (inHeader f)

/-- CRC2 of the frame is that of its payload (R241). -/
abbrev inCrc2Ok (crc : List Byte → Word) (f : Nat → Byte) : Prop :=
  crc (slice f (inHeader f + 4) (inLen f)) = fromBe32 f (inHeader f + 4 + inLen f)

/-- The checks of R230 before the size check pass for an input of `n` bytes. -/
def inHeaderOk (crc : List Byte → Word) (n : Nat) (f : Nat → Byte) : Prop :=
  11 ≤ n ∧ inType f ≠ 0 ∧ (inTr f = 1 → inType f = 1) ∧ inLen f ≤ 512 ∧ inHeader f + 4 ≤ n ∧ inCrc1Ok crc f

/-- The fields that every successful decode takes from the header and CRC1 (R230 step 10). -/
def HeaderFields (b : Bank) (f : Nat → Byte) : Prop :=
  b.type.toNat = inType f ∧ b.tr.toNat = inTr f ∧ b.win.toNat = inWin f ∧ b.len.toNat = inLen f ∧
    b.seq = f (1 + inWidth f) ∧ b.ts = fromBe32 f (2 + inWidth f) ∧ b.crc1 = fromBe32 f (inHeader f)

/-- The bytes of the buffer memory from an address, by offset. -/
def fromBase (s : State) (base : Half) (i : Nat) : Byte := s.bmByte (base.toNat + i)

/-- The state with one bit of one byte of the buffer memory flipped. -/
def flipBit (s : State) (a i : Nat) : State := s.memWrite a [s.bmByte a ^^^ (1#8 <<< i)]

/-! ### Payload bytes nobody can read -/

/-- Two banks differ at most in their payload stores. -/
def Bank.SameFields (a b : Bank) : Prop := { b with pl := a.pl } = a

/-- Two states that differ at most in payload bytes no operation can read: "Bytes `PL[i]` with `i >= PLEN`, and all
of `PL` when `PV = 0`" (R32). -/
def SameReadable (s t : State) : Prop :=
  (∀ k, (s.bank k).SameFields (t.bank k) ∧ ∀ i, i < (s.bank k).epl → t.plByte k i = s.plByte k i) ∧
    t.rsp = s.rsp ∧ t.bm = s.bm ∧ SameBuild s t ∧ t.rspValid = s.rspValid

end Sys2Proof.Machine
end

