-- ==== Sys2Proof/Certificates/Slice0/Obligations.lean ====
section
/-! DEFINITION. The statements for the provers, from the numbered rules of the spec. An answer of the form
`∃ t, exec i s = .next t ∧ …` says that the instruction completes and what it leaves, its frame included. -/

open Sys2Proof Sys2Proof.Machine

/-! ### Encodings -/

/-- Decoding an encoded instruction gives it back, for every instruction with every operand at every value its
encoding admits (R93, R94, R97, R101, R102, R106). -/
def Obligations.DecodeInvertsEncode : Prop := ∀ i : Instr, decode (encode i) = .ok i

/-- A command word that decodes is the encoding of what it decodes to, so that no stray bit is dropped (R114, R115;
D21: "one word per operation and operand tuple"). -/
def Obligations.EncodeInvertsDecodeOfCommands : Prop :=
  ∀ (w : Cmd) (i : Instr), decode (.command w) = .ok i → encode i = .command w

/-- A command word selects the operation whose row satisfies `cmd & mask == match`, at most one row does, and a
word that no row selects is no operation (R93). -/
def Obligations.CommandSelectedByMaskAndMatch : Prop :=
  ∀ w : Cmd,
    (∀ r ∈ commandRows, r.selects w = true → ∃ i, decode (.command w) = .ok i ∧ i.mnemonic = r.mnemonic) ∧
    (∀ r ∈ commandRows, ∀ q ∈ commandRows, r.selects w = true → q.selects w = true → r = q) ∧
    ((∀ r ∈ commandRows, r.selects w = false) → ∀ i, decode (.command w) ≠ .ok i)

/-- The ten worked command words (R95). -/
def Obligations.WorkedCommandWordsDecode : Prop :=
  decode (.command 0x1100000000000001) = .ok (.settype .p0 1) ∧
  decode (.command 0x130100000000001F) = .ok (.setwin .p1 31) ∧
  decode (.command 0x16000000DEADBEEF) = .ok (.setts .p0 0xDEADBEEF) ∧
  decode (.command 0x1900010000000005) = .ok (.setpay .p0 0x0100 5) ∧
  decode (.command 0x3000020000000210) = .ok (.penc .p0 0x0200 528) ∧
  decode (.command 0x3101020000000014) = .ok (.pdec .p1 0x0200 20) ∧
  decode (.command 0x0200001000020190) = .ok (.vencode 400 0x0010 2) ∧
  decode (.command 0x0100000000008000) = .ok (.vpredict 32768) ∧
  decode (.command 0x0801000000000009) = .ok (.crc32 .e1 0x0000 9) ∧
  decode (.command 0x4000000300000031) = .ok (.bmwr 0x0003 0x31)

/-- A word with a reserved opcode is no operation, the all-zero word and the all-ones word among them (R113), and so
is a word whose `z` field, bits 55:49, is not zero, whatever its opcode (R114). -/
def Obligations.ReservedWordsAreNoOperation : Prop :=
  (∀ (w : Cmd) (op : Nat), op = w.toNat / 2 ^ 56 →
    (op = 0x00 ∨ (0x04 ≤ op ∧ op ≤ 0x07) ∨ (0x09 ≤ op ∧ op ≤ 0x0F) ∨ (0x1A ≤ op ∧ op ≤ 0x20) ∨
      (0x2A ≤ op ∧ op ≤ 0x2F) ∨ (0x32 ≤ op ∧ op ≤ 0x3F) ∨ (0x42 ≤ op ∧ op ≤ 0xFF)) →
    ∀ i, decode (.command w) ≠ .ok i) ∧
  (∀ i, decode (.command 0x0000000000000000) ≠ .ok i) ∧
  (∀ i, decode (.command 0xFFFFFFFFFFFFFFFF) ≠ .ok i) ∧
  (∀ w : Cmd, w.toNat / 2 ^ 49 % 2 ^ 7 ≠ 0 → ∀ i, decode (.command w) ≠ .ok i)

/-- The wire forms: byte 0 is packed by shifts and unpacked by their inverse, for every value (R97). -/
def Obligations.Byte0PacksItsFields : Prop :=
  (∀ (t : BitVec 2) (r : BitVec 1) (w : BitVec 5),
    encode (.wireByte0 t r w) =
        .frameStart ((t.setWidth 8 <<< 6) ||| (r.setWidth 8 <<< 5) ||| w.setWidth 8) ∧
      byte0 t r w = (t.setWidth 8 <<< 6) ||| (r.setWidth 8 <<< 5) ||| w.setWidth 8) ∧
  (∀ x : Byte, (byte0Type x).toNat = x.toNat / 64 ∧ (byte0Tr x).toNat = x.toNat / 32 % 2 ∧
    (byte0Win x).toNat = x.toNat % 32 ∧ maskTr x = x &&& 0xDF#8 ∧ maskTr x = byte0 (byte0Type x) 0 (byte0Win x))

/-- The varint rows of the opcode table are what the varint codec writes and reads (R101, R102, R103, R104). -/
def Obligations.VarintRowsAreTheCodec : Prop :=
  (∀ v : BitVec 7, encode (.wireVarint1 v) = .lengthField (venc (v.setWidth 15))) ∧
  (∀ v : BitVec 15, 128 ≤ v.toNat → encode (.wireVarint2 v) = .lengthField (venc v)) ∧
  (∀ (bytes : List Byte) (v : BitVec 15) (w : Nat), vdec bytes = some (v, w) ↔
    (w = 1 ∧ ∃ u : BitVec 7, decode (.lengthField bytes) = .ok (.wireVarint1 u) ∧ v = u.setWidth 15) ∨
    (w = 2 ∧ decode (.lengthField bytes) = .ok (.wireVarint2 v)))

/-! ### Steps -/

/-- When the next command word decodes to an instruction, the step is that instruction, run with the word taken
off the host's inputs (R39, R94). -/
def Obligations.StepRunsTheDecodedInstruction : Prop :=
  ∀ (s : State) (w : Cmd) (rest : List Input) (i : Instr),
    s.inputs = .command w :: rest → decode (.command w) = .ok i →
    step s = exec i { s with inputs := rest }

/-- Presenting the table word of any instruction runs that instruction (R38, R39, R94; for the wire rows R113 and
R116). -/
def Obligations.PresentedWordRuns : Prop :=
  ∀ (s : State) (i : Instr), step (s.withFetchWord (encode i).nbits (encode i).toNat) = exec i s

/-- A word that is no operation completes with `IllegalCommand` and changes nothing but the response (R116). -/
def Obligations.NoOperationGivesIllegalCommand : Prop :=
  ∀ (s : State) (w : Cmd) (rest : List Input),
    s.inputs = .command w :: rest → (∀ i, decode (.command w) ≠ .ok i) →
    ∃ t, step s = .next t ∧ t.rsp.st.code = 15 ∧ Fails { s with inputs := rest } t .illegalCommand

/-- Every state has a next state: "the step function is total" (R44, R116). -/
def Obligations.EveryStepIsNext : Prop := ∀ s : State, ∃ t, step s = .next t

/-- With no command presented the block is idle with all state retained (R299). -/
def Obligations.IdleStepRetainsState : Prop :=
  ∀ s : State, s.inputs = [] ∨ (∃ rest, s.inputs = .idle :: rest) →
    ∃ t, step s = .next t ∧ t.rsp = s.rsp ∧ (∀ k, t.bank k = s.bank k) ∧ SameBuffer s t ∧
      t.params = s.params ∧ t.resets = s.resets ∧ t.inputs = s.inputs.tail ∧ t.rspValid = false

/-- The bits of a wire row, presented as a command, are a word that is no operation: reserved opcode 0x00 (R113,
R116). That the rows are rejected so is notes/assumptions/8. -/
def Obligations.WireRowsAreNoOperation : Prop :=
  (∀ (v : BitVec 7) (s : State), ∃ t, exec (.wireVarint1 v) s = .next t ∧ Fails s t .illegalCommand) ∧
  (∀ (v : BitVec 15) (s : State), ∃ t, exec (.wireVarint2 v) s = .next t ∧ Fails s t .illegalCommand) ∧
  (∀ (y : BitVec 2) (r : BitVec 1) (w : BitVec 5) (s : State),
    ∃ t, exec (.wireByte0 y r w) s = .next t ∧ Fails s t .illegalCommand)

/-! ### Reset, ports and statuses -/

/-- The state after reset: every packet field zero, the payload absent, the response `(Ok, 0, 0)` (R45). -/
def Obligations.ResetStateIsEmpty : Prop :=
  (∀ k, (State.reset.bank k).type = 0 ∧ (State.reset.bank k).tr = 0 ∧ (State.reset.bank k).win = 0 ∧
    (State.reset.bank k).len = 0 ∧ (State.reset.bank k).seq = 0 ∧ (State.reset.bank k).ts = 0 ∧
    (State.reset.bank k).crc1 = 0 ∧ (State.reset.bank k).crc2 = 0 ∧ (State.reset.bank k).pv = false ∧
    (State.reset.bank k).plen = 0) ∧
  State.reset.rsp.st.code = 0 ∧ State.reset.rsp.r0 = 0 ∧ State.reset.rsp.r1 = 0

/-- A step with `rst` high takes the reset values whatever the state was, keeps the parameters, and leaves every
byte of both memories at the free value of the new reset (R45, R310; the reset counter behind the free values is
notes/assumptions/3). -/
def Obligations.RstTakesTheResetState : Prop :=
  ∀ (s : State) (rest : List Input), s.inputs = .rst :: rest →
    ∃ t, step s = .next t ∧ (∀ k, t.bank k = State.reset.bank k) ∧ t.rsp = State.reset.rsp ∧
      t.rspValid = false ∧ t.params = s.params ∧ t.inputs = rest ∧ t.resets = s.resets + 1 ∧
      (∀ a, t.bmByte a = Config.bmUnwritten (s.resets + 1) a) ∧
      (∀ k i, t.plByte k i = Config.plUnwritten (s.resets + 1) (BankId.number k) i)

/-- The output ports show the response registers; while `rst` is high `cmd_ready` and `rsp_valid` are low, and
otherwise the block is ready (R38, R310). -/
def Obligations.PortsShowTheResponse : Prop :=
  (∀ s : State,
    s.outPorts.rspStatus = s.rsp.st.code ∧ s.outPorts.rspR0 = s.rsp.r0 ∧ s.outPorts.rspR1 = s.rsp.r1) ∧
  (∀ (s : State) (rest : List Input), s.inputs = .rst :: rest →
    s.outPorts.cmdReady = false ∧ s.outPorts.rspValid = false) ∧
  (∀ s : State, s.inputs.head? ≠ some .rst → s.outPorts.cmdReady = true) ∧
  (∀ (i : Instr) (s t : State), exec i s = .next t → s.inputs.head? ≠ some .rst → t.outPorts.rspValid = true)

/-- The status codes (R270). -/
def Obligations.StatusCodesAreListed : Prop :=
  Status.ok.code = 0 ∧ Status.invalidType.code = 1 ∧ Status.invalidTruncationFlag.code = 2 ∧
  Status.invalidWindow.code = 3 ∧ Status.invalidLength.code = 4 ∧ Status.payloadTooLarge.code = 5 ∧
  Status.bufferTooSmall.code = 6 ∧ Status.headerTooShort.code = 7 ∧ Status.checksumMismatch.code = 8 ∧
  Status.inconsistentLength.code = 9 ∧ Status.addressError.code = 14 ∧ Status.illegalCommand.code = 15 ∧
  ∀ st : Status, st.code ≠ 10 ∧ st.code ≠ 11 ∧ st.code ≠ 12 ∧ st.code ≠ 13

/-! ### Rules over all instructions -/

/-- The state after reset is legal (R45, R46). -/
def Obligations.ResetIsLegal : Prop := State.reset.Legal

/-- Every step keeps the invariant of R46, the canonical form of the three memories, their bounds and the
constraint on the parameters. -/
def Obligations.StepKeepsLegal : Prop := ∀ s t : State, s.Legal → step s = .next t → t.Legal

/-- An operation that does not end with `Ok` changes nothing but the response (R271, R292). -/
def Obligations.FailureChangesOnlyTheResponse : Prop :=
  ∀ (i : Instr) (s t : State), exec i s = .next t → t.rsp.st ≠ .ok → Fails s t t.rsp.st

/-- An operation ends only with a status that the table of R284 gives it. -/
def Obligations.StatusTableHolds : Prop :=
  ∀ (i : Instr) (s t : State), exec i s = .next t → t.rsp.st ∈ allowedStatuses i

/-- A byte of the buffer memory outside the range an operation may write reads as before (R61, R73, R133, R250). -/
def Obligations.OnlyTheDeclaredRangeIsWritten : Prop :=
  ∀ (i : Instr) (s t : State), exec i s = .next t →
    SameBufferOutside s t (writeRange s i).1 (writeRange s i).2

/-- A bank that an operation does not write is unchanged: getters, codec operations and buffer access write none,
and an operation on one bank leaves the other alone (R22 to R33, R171, R189, R222). -/
def Obligations.OnlyTheNamedBankIsWritten : Prop :=
  ∀ (i : Instr) (s t : State) (k : BankId), exec i s = .next t → writesBank i k = false → t.bank k = s.bank k

/-- The response and the banks an operation leaves depend on no byte of the buffer memory outside the range it may
read (R61, R73, R136, R232). -/
def Obligations.OnlyTheDeclaredRangeIsRead : Prop :=
  ∀ (i : Instr) (s s' : State), (∀ k, s'.bank k = s.bank k) → SameBuild s s' →
    (∀ j, j < (readRange i).2 → s'.bmByte ((readRange i).1 + j) = s.bmByte ((readRange i).1 + j)) →
    ∀ t t', exec i s = .next t → exec i s' = .next t' → t'.rsp = t.rsp ∧ ∀ k, t'.bank k = t.bank k

/-- Payload bytes at or beyond `PLEN`, and all of them when the payload is absent, are never read: two states that
differ in nothing else go on differing in nothing else, with the same responses and the same buffer memory
(R32). -/
def Obligations.UnreadablePayloadBytesDoNotMatter : Prop :=
  ∀ (i : Instr) (s s' : State), SameReadable s s' →
    ∀ t, exec i s = .next t → ∃ t', exec i s' = .next t' ∧ SameReadable t t'

/-- "no operation can write 0 except `PCLEAR` and reset": a type that is set stays set (R22). -/
def Obligations.TypeIsUnsetOnlyByClearOrReset : Prop :=
  ∀ (s t : State) (k : BankId), step s = .next t → (s.bank k).type ≠ 0 → (t.bank k).type = 0 →
    s.inputs.head? = some .rst ∨
      ∃ w, s.inputs.head? = some (.command w) ∧ decode (.command w) = .ok (.pclear k)

/-- No step changes the parameters of the build (R37). -/
def Obligations.ParametersNeverChange : Prop := ∀ s t : State, step s = .next t → t.params = s.params

/-! ### varint_codec -/

/-- `VPREDICT` (R131). -/
def Obligations.VpredictClassifies : Prop :=
  ∀ (value : Half) (s : State),
    (value.toNat ≤ 127 → ∃ t, exec (.vpredict value) s = .next t ∧ OnlyResponds s t .ok 0 1) ∧
    (128 ≤ value.toNat ∧ value.toNat ≤ 32767 →
      ∃ t, exec (.vpredict value) s = .next t ∧ OnlyResponds s t .ok 0 2) ∧
    (32768 ≤ value.toNat → ∃ t, exec (.vpredict value) s = .next t ∧ Fails s t .invalidLength) ∧
    (Instr.vpredict value).HasEncoding 0x01 .v (fun f => f.al = value)

/-- `VENCODE` (R132, R133). -/
def Obligations.VencodeWritesTheVarint : Prop :=
  ∀ (value base cap : Half) (s : State),
    (base.toNat + cap.toNat ≤ s.params.bmSize → value.toNat ≤ 127 → 1 ≤ cap.toNat →
      ∃ t, exec (.vencode value base cap) s = .next t ∧ Responds t .ok 0 1 ∧
        Stores s t base.toNat 1 (fun _ => value.setWidth 8)) ∧
    (base.toNat + cap.toNat ≤ s.params.bmSize → 128 ≤ value.toNat → value.toNat ≤ 32767 → 2 ≤ cap.toNat →
      ∃ t, exec (.vencode value base cap) s = .next t ∧ Responds t .ok 0 2 ∧
        Stores s t base.toNat 2
          (fun i => if i = 0 then 0x80#8 ||| (value >>> 8).setWidth 8 else value.setWidth 8)) ∧
    (s.params.bmSize < base.toNat + cap.toNat →
      ∃ t, exec (.vencode value base cap) s = .next t ∧ Fails s t .addressError) ∧
    (base.toNat + cap.toNat ≤ s.params.bmSize → 32768 ≤ value.toNat →
      ∃ t, exec (.vencode value base cap) s = .next t ∧ Fails s t .invalidLength) ∧
    (base.toNat + cap.toNat ≤ s.params.bmSize → value.toNat ≤ 32767 → cap.toNat < lengthWidth value.toNat →
      ∃ t, exec (.vencode value base cap) s = .next t ∧ Fails s t .bufferTooSmall) ∧
    (Instr.vencode value base cap).HasEncoding 0x02 .vbc (fun f => f.al = value ∧ f.b = base ∧ f.ah = cap)

/-- `VDECODE` (R135). -/
def Obligations.VdecodeReadsTheVarint : Prop :=
  ∀ (base avail : Half) (s : State),
    (base.toNat + avail.toNat ≤ s.params.bmSize → 1 ≤ avail.toNat → (s.bmByte base.toNat).toNat < 128 →
      ∃ t, exec (.vdecode base avail) s = .next t ∧
        OnlyResponds s t .ok ((s.bmByte base.toNat).setWidth 32) 1) ∧
    (base.toNat + avail.toNat ≤ s.params.bmSize → 2 ≤ avail.toNat → 128 ≤ (s.bmByte base.toNat).toNat →
      ∃ t, exec (.vdecode base avail) s = .next t ∧
        OnlyResponds s t .ok
          (((s.bmByte base.toNat &&& 0x7F).setWidth 32 <<< 8) ||| (s.bmByte (base.toNat + 1)).setWidth 32) 2) ∧
    (s.params.bmSize < base.toNat + avail.toNat →
      ∃ t, exec (.vdecode base avail) s = .next t ∧ Fails s t .addressError) ∧
    (base.toNat + avail.toNat ≤ s.params.bmSize →
      avail.toNat = 0 ∨ (avail.toNat = 1 ∧ 128 ≤ (s.bmByte base.toNat).toNat) →
      ∃ t, exec (.vdecode base avail) s = .next t ∧ Fails s t .headerTooShort) ∧
    (Instr.vdecode base avail).HasEncoding 0x03 .bn (fun f => f.b = base ∧ f.al = avail)

/-- The facts (a) to (f) about the varint functions (R138). -/
def Obligations.VarintLaws : Prop :=
  (∀ u v : BitVec 15, venc u = venc v → u = v) ∧
  (∀ x : Byte, x.toNat ≤ 127 → vdec [x] = some (x.setWidth 15, 1) ∧ vdec [0x80, x] = some (x.setWidth 15, 2)) ∧
  (∀ (bytes : List Byte) (v : BitVec 15) (w : Nat), vdec bytes = some (v, w) →
    ((venc v = bytes.take w ↔ ¬∃ y rest, y.toNat ≤ 0x7F ∧ bytes = 0x80 :: y :: rest) ∧
      (∀ more, vdec (bytes ++ more) = some (v, w)) ∧ vpredict (v.setWidth 16) ≠ none)) ∧
  (∀ v : BitVec 15, vpredict (v.setWidth 16) = some (venc v).length) ∧
  (∀ (v : BitVec 15) (x : Byte) (rest : List Byte), venc v = x :: rest → (x.toNat < 0x80 ↔ v.toNat ≤ 127))

/-- The varint round trip, of the functions for every value, and of `VENCODE` followed by `VDECODE` of at least as
many bytes (R137). -/
def Obligations.VencodeThenVdecode : Prop :=
  (∀ v : BitVec 15, ∃ w, vpredict (v.setWidth 16) = some w ∧ vdec (venc v) = some (v, w)) ∧
  ∀ (value base cap n : Half) (s t : State), exec (.vencode value base cap) s = .next t → t.rsp.st = .ok →
    t.rsp.r1.toNat ≤ n.toNat → base.toNat + n.toNat ≤ s.params.bmSize →
    ∃ u, exec (.vdecode base n) t = .next u ∧ OnlyResponds t u .ok (value.setWidth 32) t.rsp.r1.toNat

/-! ### crc32_gen -/

/-- The `CRC32` operation: the checksum of the bytes as stored, on either engine alike (R155, R156). -/
def Obligations.Crc32CoversTheRange : Prop :=
  ∀ (e : Engine) (base len : Half) (s : State),
    (base.toNat + len.toNat ≤ s.params.bmSize →
      ∃ t, exec (.crc32 e base len) s = .next t ∧
        OnlyResponds s t .ok (crc32Of s.params.crc32 (slice s.bmByte base.toNat len.toNat)) len.toNat) ∧
    (s.params.bmSize < base.toNat + len.toNat →
      ∃ t, exec (.crc32 e base len) s = .next t ∧ Fails s t .addressError) ∧
    (Instr.crc32 e base len).HasEncoding 0x08 .kbn (fun f => f.k = e.bit ∧ f.b = base ∧ f.al = len)

/-- `CRC.bit1`: under the default, flipping one bit of the input changes the checksum (R153). -/
def Obligations.CrcDetectsOneBit : Prop :=
  ∀ (before after : List Byte) (x : Byte) (i : Nat), i < 8 →
    crc32IsoHdlc (before ++ x :: after) ≠ crc32IsoHdlc (before ++ (x ^^^ (1#8 <<< i)) :: after)

/-- Values of the default function (R151, R152, R157). They are the spec's general knowledge, taken as its default:
notes/assumptions/5. -/
def Obligations.CrcDefaultValues : Prop :=
  crc32IsoHdlc [0x31, 0x32, 0x33, 0x34, 0x35, 0x36, 0x37, 0x38, 0x39] = 0xCBF43926 ∧
  crc32IsoHdlc [] = 0x00000000 ∧ crc32IsoHdlc [0x00] = 0xD202EF8D ∧ crc32IsoHdlc [0xFF] = 0xFF000000 ∧
  crc32IsoHdlc [0x61] = 0xE8B7BE43 ∧ crc32IsoHdlc [0x61, 0x62, 0x63] = 0x352441C2 ∧
  crc32IsoHdlc [0x68, 0x65, 0x6C, 0x6C, 0x6F] = 0x3610A686 ∧
  crcAcc 0xFFFFFFFF [0x31] = 0x7C231048 ∧ crcAcc 0xFFFFFFFF [0x31, 0x32] = 0xB0ACBB32

/-! ### Packet field operations -/

/-- `PCLEAR` (R170). -/
def Obligations.PclearEmptiesTheBank : Prop :=
  ∀ (k : BankId) (s : State),
    (∃ t, exec (.pclear k) s = .next t ∧ Responds t .ok 0 0 ∧
      BankBecomes s t k
        { type := 0, tr := 0, win := 0, len := 0, seq := 0, ts := 0, crc1 := 0, crc2 := 0, pv := false, plen := 0,
          pl := (s.bank k).pl }) ∧
    (Instr.pclear k).HasEncoding 0x10 .k (fun f => f.k = k.bit)

/-- `SETTYPE` (R172). -/
def Obligations.SettypeChecksTheType : Prop :=
  ∀ (k : BankId) (t : Byte) (s : State),
    (t = 1 ∨ t = 2 ∨ t = 3 →
      ∃ u, exec (.settype k t) s = .next u ∧ Responds u .ok 0 0 ∧
        BankBecomes s u k { s.bank k with type := t.setWidth 2 }) ∧
    (t = 0 ∨ 4 ≤ t.toNat → ∃ u, exec (.settype k t) s = .next u ∧ Fails s u .invalidType) ∧
    (Instr.settype k t).HasEncoding 0x11 .k8 (fun f => f.k = k.bit ∧ f.a8 = t)

/-- `SETTR` (R173). -/
def Obligations.SettrChecksValueAndType : Prop :=
  ∀ (k : BankId) (tr : Byte) (s : State),
    (tr = 0 ∨ (tr = 1 ∧ (s.bank k).type = 1) →
      ∃ t, exec (.settr k tr) s = .next t ∧ Responds t .ok 0 0 ∧
        BankBecomes s t k { s.bank k with tr := tr.setWidth 1 }) ∧
    (2 ≤ tr.toNat ∨ (tr = 1 ∧ (s.bank k).type ≠ 1) →
      ∃ t, exec (.settr k tr) s = .next t ∧ Fails s t .invalidTruncationFlag) ∧
    (Instr.settr k tr).HasEncoding 0x12 .k8 (fun f => f.k = k.bit ∧ f.a8 = tr)

/-- `SETWIN` (R174). -/
def Obligations.SetwinChecksTheWindow : Prop :=
  ∀ (k : BankId) (w : Byte) (s : State),
    (w.toNat ≤ 31 →
      ∃ t, exec (.setwin k w) s = .next t ∧ Responds t .ok 0 0 ∧
        BankBecomes s t k { s.bank k with win := w.setWidth 5 }) ∧
    (32 ≤ w.toNat → ∃ t, exec (.setwin k w) s = .next t ∧ Fails s t .invalidWindow) ∧
    (Instr.setwin k w).HasEncoding 0x13 .k8 (fun f => f.k = k.bit ∧ f.a8 = w)

/-- `SETLEN` (R175). -/
def Obligations.SetlenChecksTheCap : Prop :=
  ∀ (k : BankId) (len : Half) (s : State),
    (len.toNat ≤ 512 →
      ∃ t, exec (.setlen k len) s = .next t ∧ Responds t .ok 0 0 ∧
        BankBecomes s t k { s.bank k with len := len.setWidth 15 }) ∧
    (513 ≤ len.toNat → ∃ t, exec (.setlen k len) s = .next t ∧ Fails s t .invalidLength) ∧
    (Instr.setlen k len).HasEncoding 0x14 .k16 (fun f => f.k = k.bit ∧ f.al = len)

/-- `SETSEQ`, `SETTS`, `SETCRC1` and `SETCRC2` accept every value (R176, R177, R178, R179). -/
def Obligations.UnconditionalSettersStore : Prop :=
  ∀ (k : BankId) (s : State),
    (∀ sq : Byte, (∃ t, exec (.setseq k sq) s = .next t ∧ Responds t .ok 0 0 ∧
      BankBecomes s t k { s.bank k with seq := sq }) ∧
      (Instr.setseq k sq).HasEncoding 0x15 .k8 (fun f => f.k = k.bit ∧ f.a8 = sq)) ∧
    (∀ x : Word, (∃ t, exec (.setts k x) s = .next t ∧ Responds t .ok 0 0 ∧
      BankBecomes s t k { s.bank k with ts := x }) ∧
      (Instr.setts k x).HasEncoding 0x16 .k32 (fun f => f.k = k.bit ∧ f.a = x)) ∧
    (∀ c : Word, (∃ t, exec (.setcrc1 k c) s = .next t ∧ Responds t .ok 0 0 ∧
      BankBecomes s t k { s.bank k with crc1 := c }) ∧
      (Instr.setcrc1 k c).HasEncoding 0x17 .k32 (fun f => f.k = k.bit ∧ f.a = c)) ∧
    (∀ c : Word, (∃ t, exec (.setcrc2 k c) s = .next t ∧ Responds t .ok 0 0 ∧
      BankBecomes s t k { s.bank k with crc2 := c }) ∧
      (Instr.setcrc2 k c).HasEncoding 0x18 .k32 (fun f => f.k = k.bit ∧ f.a = c))

/-- `SETPAY` (R180, R181): the bytes are copied in and the bank becomes length-consistent. -/
def Obligations.SetpayCopiesThePayloadIn : Prop :=
  ∀ (k : BankId) (base len : Half) (s : State),
    (base.toNat + len.toNat ≤ s.params.bmSize → len.toNat ≤ 512 →
      ∃ t, exec (.setpay k base len) s = .next t ∧ Responds t .ok 0 len.toNat ∧
        BankBecomes s t k
          { s.bank k with len := len.setWidth 15, plen := len.setWidth 10, pv := true, pl := (t.bank k).pl } ∧
        (∀ i, i < len.toNat → t.plByte k i = s.bmByte (base.toNat + i)) ∧
        (∀ i, len.toNat ≤ i → t.plByte k i = s.plByte k i) ∧
        (t.bank k).len.toNat = (t.bank k).plen.toNat ∧ (t.bank k).lengthConsistent = true) ∧
    (s.params.bmSize < base.toNat + len.toNat →
      ∃ t, exec (.setpay k base len) s = .next t ∧ Fails s t .addressError) ∧
    (base.toNat + len.toNat ≤ s.params.bmSize → 513 ≤ len.toNat →
      ∃ t, exec (.setpay k base len) s = .next t ∧ Fails s t .payloadTooLarge) ∧
    (Instr.setpay k base len).HasEncoding 0x19 .kbn (fun f => f.k = k.bit ∧ f.b = base ∧ f.al = len)

/-- The eight getters of a register field: pure, total, zero-extended (R189 to R197). -/
def Obligations.GettersAnswerTheField : Prop :=
  ∀ (k : BankId) (s : State),
    (∃ t, exec (.gettype k) s = .next t ∧ OnlyResponds s t .ok ((s.bank k).type.setWidth 32) 0) ∧
    (∃ t, exec (.gettr k) s = .next t ∧ OnlyResponds s t .ok ((s.bank k).tr.setWidth 32) 0) ∧
    (∃ t, exec (.getwin k) s = .next t ∧ OnlyResponds s t .ok ((s.bank k).win.setWidth 32) 0) ∧
    (∃ t, exec (.getlen k) s = .next t ∧ OnlyResponds s t .ok ((s.bank k).len.setWidth 32) 0) ∧
    (∃ t, exec (.getseq k) s = .next t ∧ OnlyResponds s t .ok ((s.bank k).seq.setWidth 32) 0) ∧
    (∃ t, exec (.getts k) s = .next t ∧ OnlyResponds s t .ok (s.bank k).ts 0) ∧
    (∃ t, exec (.getcrc1 k) s = .next t ∧ OnlyResponds s t .ok (s.bank k).crc1 0) ∧
    (∃ t, exec (.getcrc2 k) s = .next t ∧ OnlyResponds s t .ok (s.bank k).crc2 0) ∧
    (Instr.gettype k).HasEncoding 0x21 .k (fun f => f.k = k.bit) ∧
    (Instr.gettr k).HasEncoding 0x22 .k (fun f => f.k = k.bit) ∧
    (Instr.getwin k).HasEncoding 0x23 .k (fun f => f.k = k.bit) ∧
    (Instr.getlen k).HasEncoding 0x24 .k (fun f => f.k = k.bit) ∧
    (Instr.getseq k).HasEncoding 0x25 .k (fun f => f.k = k.bit) ∧
    (Instr.getts k).HasEncoding 0x26 .k (fun f => f.k = k.bit) ∧
    (Instr.getcrc1 k).HasEncoding 0x27 .k (fun f => f.k = k.bit) ∧
    (Instr.getcrc2 k).HasEncoding 0x28 .k (fun f => f.k = k.bit)

/-- `GETPAY` (R198). -/
def Obligations.GetpayCopiesThePayloadOut : Prop :=
  ∀ (k : BankId) (base : Half) (s : State),
    ((s.bank k).pv = true → base.toNat + (s.bank k).plen.toNat ≤ s.params.bmSize →
      ∃ t, exec (.getpay k base) s = .next t ∧ Responds t .ok 1 (s.bank k).plen.toNat ∧
        Stores s t base.toNat (s.bank k).plen.toNat (s.plByte k)) ∧
    ((s.bank k).pv = false → base.toNat ≤ s.params.bmSize →
      ∃ t, exec (.getpay k base) s = .next t ∧ OnlyResponds s t .ok 0 0) ∧
    (s.params.bmSize < base.toNat + (if (s.bank k).pv then (s.bank k).plen.toNat else 0) →
      ∃ t, exec (.getpay k base) s = .next t ∧ Fails s t .addressError) ∧
    (Instr.getpay k base).HasEncoding 0x29 .kb (fun f => f.k = k.bit ∧ f.b = base)

/-- The payload is copied in and never aliased: what `SETPAY` took is what `GETPAY` gives, whatever byte of the
buffer memory is written in between (R30, R63, R180, R198). -/
def Obligations.PayloadIsACopy : Prop :=
  ∀ (k : BankId) (base len addr out : Half) (byte : Byte) (s t u : State),
    exec (.setpay k base len) s = .next t → t.rsp.st = .ok → exec (.bmwr addr byte) t = .next u →
    out.toNat + len.toNat ≤ s.params.bmSize →
    ∃ v, exec (.getpay k out) u = .next v ∧ Responds v .ok 1 len.toNat ∧
      ∀ i, i < len.toNat → v.bmByte (out.toNat + i) = s.bmByte (base.toNat + i)

/-! ### packet_encoder -/

/-- `PENC` (R210 to R222): on success exactly the frame of the bank is written and no packet field changes; the
failures come in the order range, length, capacity. A 15-bit length is always representable. -/
def Obligations.PencWritesTheFrame : Prop :=
  ∀ (k : BankId) (base cap : Half) (s : State),
    let b := s.bank k
    let len := b.len.toNat
    let stored := if b.pv then b.plen.toNat else 0
    let total := headerSize len + 8 + len
    (base.toNat + cap.toNat ≤ s.params.bmSize → len = stored → total ≤ cap.toNat →
      ∃ t, exec (.penc k base cap) s = .next t ∧ Responds t .ok 0 total ∧
        IsFrame (crc32Of s.params.crc32) s.params.encMaskTr b (s.plByte k) t.bmByte base.toNat ∧
        SameBufferOutside s t base.toNat total ∧ (∀ j, t.bank j = s.bank j) ∧ SameBuild s t) ∧
    (s.params.bmSize < base.toNat + cap.toNat →
      ∃ t, exec (.penc k base cap) s = .next t ∧ Fails s t .addressError) ∧
    (base.toNat + cap.toNat ≤ s.params.bmSize → len ≠ stored →
      ∃ t, exec (.penc k base cap) s = .next t ∧ Fails s t .invalidLength) ∧
    (base.toNat + cap.toNat ≤ s.params.bmSize → len = stored → cap.toNat < total →
      ∃ t, exec (.penc k base cap) s = .next t ∧ Fails s t .bufferTooSmall) ∧
    (Instr.penc k base cap).HasEncoding 0x30 .kbn (fun f => f.k = k.bit ∧ f.b = base ∧ f.al = cap)

/-- The encoder neither reads nor writes the checksum fields of the bank (R28, R29, R222). -/
def Obligations.PencIgnoresTheChecksumFields : Prop :=
  ∀ (k : BankId) (base cap : Half) (c1 c2 : Word) (s t : State), exec (.penc k base cap) s = .next t →
    ∃ u, exec (.penc k base cap) (s.setBank k { s.bank k with crc1 := c1, crc2 := c2 }) = .next u ∧
      u.rsp = t.rsp ∧ u.bm = t.bm

/-- The document's concrete scenario: 400 bytes of `1` in a DATA packet give a frame of 416 bytes with the header
and, under the default `CRC32`, the checksums that R225 lists. -/
def Obligations.ConcreteScenario : Prop :=
  ∀ (k : BankId) (base cap : Half) (s : State),
    (s.bank k).type = 1 → (s.bank k).tr = 0 → (s.bank k).win = 16 → (s.bank k).len = 400 →
    (s.bank k).seq = 3 → (s.bank k).ts = 4 → (s.bank k).pv = true → (s.bank k).plen = 400 →
    (∀ i, i < 400 → s.plByte k i = 0x31) → s.params.crc32 = .isoHdlc →
    base.toNat + cap.toNat ≤ s.params.bmSize → 416 ≤ cap.toNat →
    ∃ t, exec (.penc k base cap) s = .next t ∧ Responds t .ok 0 416 ∧
      slice t.bmByte base.toNat 8 = [0x50, 0x81, 0x90, 0x03, 0x00, 0x00, 0x00, 0x04] ∧
      fromBe32 t.bmByte (base.toNat + 8) = 0x43CE6563 ∧
      (∀ i, i < 400 → t.bmByte (base.toNat + 12 + i) = 0x31) ∧
      fromBe32 t.bmByte (base.toNat + 412) = 0x96BC56FB

/-! ### packet_decoder -/

/-- Which failure `PDEC` reports: the first in the order of the table of R244; and when none applies, success. -/
def Obligations.PdecReportsTheFirstFailure : Prop :=
  ∀ (k : BankId) (base len : Half) (s : State),
    let n := len.toNat
    let f := fromBase s base
    let crc := crc32Of s.params.crc32
    ∃ t, exec (.pdec k base len) s = .next t ∧
      (s.params.bmSize < base.toNat + n → Fails s t .addressError) ∧
      (base.toNat + n ≤ s.params.bmSize →
        (n ≤ 6 → Fails s t .headerTooShort) ∧
        (7 ≤ n → n ≤ 10 → Fails s t .checksumMismatch) ∧
        (11 ≤ n →
          (inType f = 0 → Fails s t .invalidType) ∧
          (inType f ≠ 0 → inTr f = 1 → inType f ≠ 1 → Fails s t .invalidTruncationFlag) ∧
          (inType f ≠ 0 → (inTr f = 1 → inType f = 1) →
            (512 < inLen f → Fails s t .invalidLength) ∧
            (inLen f ≤ 512 → n = 11 → inWidth f = 2 → Fails s t .checksumMismatch) ∧
            (inLen f ≤ 512 → (n = 11 → inWidth f = 1) →
              (¬inCrc1Ok crc f → Fails s t .checksumMismatch) ∧
              (inCrc1Ok crc f → inTr f = 0 → n < inLen f + inHeader f + 8 → Fails s t .inconsistentLength) ∧
              (inCrc1Ok crc f → inTr f = 0 → inLen f + inHeader f + 8 ≤ n → inType f = 1 → ¬inCrc2Ok crc f →
                Fails s t .checksumMismatch) ∧
              (inCrc1Ok crc f → (inTr f = 0 → inLen f + inHeader f + 8 ≤ n) →
                (inTr f = 0 → inType f = 1 → inCrc2Ok crc f) → t.rsp.st = .ok))))) ∧
      (Instr.pdec k base len).HasEncoding 0x31 .kbn (fun f => f.k = k.bit ∧ f.b = base ∧ f.al = len)

/-- `PDEC` of an untruncated DATA frame: every field of the bank is written, the payload copied in (R230, R241,
R243). -/
def Obligations.PdecStoresADataFrame : Prop :=
  ∀ (k : BankId) (base len : Half) (s : State),
    let f := fromBase s base
    let crc := crc32Of s.params.crc32
    base.toNat + len.toNat ≤ s.params.bmSize → inHeaderOk crc len.toNat f → inTr f = 0 → inType f = 1 →
    inLen f + inHeader f + 8 ≤ len.toNat → inCrc2Ok crc f →
    ∃ t, exec (.pdec k base len) s = .next t ∧ Responds t .ok 0 (inHeader f + 8 + inLen f) ∧
      HeaderFields (t.bank k) f ∧ (t.bank k).crc2 = fromBe32 f (inHeader f + 4 + inLen f) ∧
      (t.bank k).pv = true ∧ (t.bank k).plen.toNat = inLen f ∧
      (∀ i, i < inLen f → t.plByte k i = f (inHeader f + 4 + i)) ∧
      (∀ i, inLen f ≤ i → t.plByte k i = s.plByte k i) ∧
      t.bank (other k) = s.bank (other k) ∧ SameBuffer s t ∧ SameBuild s t

/-- `PDEC` of every other frame: no payload is extracted, and its CRC2 is not looked at (R230, R242, R243). -/
def Obligations.PdecStoresAHeaderOnly : Prop :=
  ∀ (k : BankId) (base len : Half) (s : State),
    let f := fromBase s base
    let crc := crc32Of s.params.crc32
    base.toNat + len.toNat ≤ s.params.bmSize → inHeaderOk crc len.toNat f →
    inTr f = 1 ∨ (inType f ≠ 1 ∧ inLen f + inHeader f + 8 ≤ len.toNat) →
    ∃ t, exec (.pdec k base len) s = .next t ∧
      Responds t .ok 0 (if inTr f = 0 then inHeader f + 8 + inLen f else inHeader f + 4) ∧
      HeaderFields (t.bank k) f ∧ (t.bank k).crc2 = 0 ∧ (t.bank k).pv = false ∧ (t.bank k).plen = 0 ∧
      (∀ i, t.plByte k i = s.plByte k i) ∧
      t.bank (other k) = s.bank (other k) ∧ SameBuffer s t ∧ SameBuild s t

/-- A packet that was decoded without its payload but announces one cannot be encoded again (R242, R326). -/
def Obligations.HeaderOnlyPacketsCannotBeEncoded : Prop :=
  ∀ (k : BankId) (base len out cap : Half) (s t : State),
    exec (.pdec k base len) s = .next t → t.rsp.st = .ok → (t.bank k).pv = false → (t.bank k).len ≠ 0 →
    out.toNat + cap.toNat ≤ s.params.bmSize →
    ∃ u, exec (.penc k out cap) t = .next u ∧ Fails t u .invalidLength

/-! ### Encoder and decoder together -/

/-- The round trip: an encoded packet with the truncated flag clear decodes into the other or the same bank, for
every `CRC32` and either `ENC_MASK_TR` (R245). -/
def Obligations.EncodedPacketsDecode : Prop :=
  ∀ (a b : BankId) (base cap len : Half) (s t : State),
    exec (.penc a base cap) s = .next t → t.rsp.st = .ok →
    (s.bank a).type ≠ 0 → (s.bank a).tr = 0 → (s.bank a).len.toNat ≤ 512 →
    t.rsp.r1.toNat ≤ len.toNat → base.toNat + len.toNat ≤ s.params.bmSize →
    ∃ u, exec (.pdec b base len) t = .next u ∧ Responds u .ok 0 t.rsp.r1.toNat ∧
      (u.bank b).type = (s.bank a).type ∧ (u.bank b).tr = (s.bank a).tr ∧ (u.bank b).win = (s.bank a).win ∧
      (u.bank b).len = (s.bank a).len ∧ (u.bank b).seq = (s.bank a).seq ∧ (u.bank b).ts = (s.bank a).ts ∧
      ((s.bank a).type = 1 → (u.bank b).pv = true ∧ (u.bank b).plen.toNat = (s.bank a).len.toNat ∧
        ∀ i, i < (s.bank a).len.toNat → u.plByte b i = s.plByte a i) ∧
      ((s.bank a).type ≠ 1 → (u.bank b).pv = false ∧ (u.bank b).plen = 0 ∧ (u.bank b).crc2 = 0)

/-- What becomes of an encoded packet with the truncated flag set, or with no type: it decodes, without its
payload, only when it is DATA and the encoder masked; without masking the default `CRC32` catches it (R221, R223,
R245). -/
def Obligations.TruncatedPacketsDecodeOnlyIfMasked : Prop :=
  ∀ (a b : BankId) (base cap len : Half) (s t : State),
    exec (.penc a base cap) s = .next t → t.rsp.st = .ok → (s.bank a).len.toNat ≤ 512 →
    t.rsp.r1.toNat ≤ len.toNat → base.toNat + len.toNat ≤ s.params.bmSize →
    ((s.bank a).type = 0 → ∃ u, exec (.pdec b base len) t = .next u ∧ Fails t u .invalidType) ∧
    ((s.bank a).tr = 1 → (s.bank a).type ≠ 0 → (s.bank a).type ≠ 1 →
      ∃ u, exec (.pdec b base len) t = .next u ∧ Fails t u .invalidTruncationFlag) ∧
    ((s.bank a).tr = 1 → (s.bank a).type = 1 → s.params.encMaskTr = false → s.params.crc32 = .isoHdlc →
      ∃ u, exec (.pdec b base len) t = .next u ∧ Fails t u .checksumMismatch) ∧
    ((s.bank a).tr = 1 → (s.bank a).type = 1 → s.params.encMaskTr = true →
      ∃ u, exec (.pdec b base len) t = .next u ∧ Responds u .ok 0 (headerSize (s.bank a).len.toNat + 4) ∧
        (u.bank b).type = 1 ∧ (u.bank b).tr = 1 ∧ (u.bank b).win = (s.bank a).win ∧
        (u.bank b).len = (s.bank a).len ∧ (u.bank b).seq = (s.bank a).seq ∧ (u.bank b).ts = (s.bank a).ts ∧
        (u.bank b).pv = false ∧ (u.bank b).plen = 0 ∧ (u.bank b).crc2 = 0)

/-- Truncation-bit checksum independence: a hop that sets the truncated bit of an encoded DATA frame, and may cut it
short, leaves a frame that still decodes, without payload (R246). -/
def Obligations.TruncatedBitMayBeSetInFlight : Prop :=
  ∀ (a b : BankId) (base cap n : Half) (s t : State),
    exec (.penc a base cap) s = .next t → t.rsp.st = .ok →
    (s.bank a).type = 1 → (s.bank a).tr = 0 → (s.bank a).len.toNat ≤ 512 →
    11 ≤ n.toNat → headerSize (s.bank a).len.toNat + 4 ≤ n.toNat → base.toNat + n.toNat ≤ s.params.bmSize →
    ∃ u, exec (.pdec b base n) (flipBit t base.toNat 5) = .next u ∧
      Responds u .ok 0 (headerSize (s.bank a).len.toNat + 4) ∧
      (u.bank b).type = 1 ∧ (u.bank b).tr = 1 ∧ (u.bank b).win = (s.bank a).win ∧
      (u.bank b).len = (s.bank a).len ∧ (u.bank b).seq = (s.bank a).seq ∧ (u.bank b).ts = (s.bank a).ts ∧
      (u.bank b).pv = false ∧ (u.bank b).plen = 0 ∧ (u.bank b).crc2 = 0

/-- A flipped window, sequence number, timestamp or CRC1 bit of an encoded frame is caught by the header checksum,
under the default `CRC32` (R247, the rows marked step 6 but for those of type and length). -/
def Obligations.HeaderBitFlipsAreDetected : Prop :=
  ∀ (a b : BankId) (base cap : Half) (j i : Nat) (s t : State),
    exec (.penc a base cap) s = .next t → t.rsp.st = .ok → s.params.crc32 = .isoHdlc →
    (s.bank a).type ≠ 0 → (s.bank a).tr = 0 → (s.bank a).len.toNat ≤ 512 →
    (j = 0 ∧ i < 5) ∨
      (1 + lengthWidth (s.bank a).len.toNat ≤ j ∧ j < headerSize (s.bank a).len.toNat + 4 ∧ i < 8) →
    ∃ u, exec (.pdec b base t.rsp.r1) (flipBit t (base.toNat + j) i) = .next u ∧
      Fails (flipBit t (base.toNat + j) i) u .checksumMismatch

/-- A flipped payload or CRC2 bit is caught in a DATA frame, under the default `CRC32`, and passes unseen in an ACK
or NACK frame (R247, its last two rows). -/
def Obligations.PayloadBitFlipsAreDetectedInData : Prop :=
  ∀ (a b : BankId) (base cap : Half) (j i : Nat) (s t : State),
    exec (.penc a base cap) s = .next t → t.rsp.st = .ok → s.params.crc32 = .isoHdlc →
    (s.bank a).type ≠ 0 → (s.bank a).tr = 0 → (s.bank a).len.toNat ≤ 512 →
    headerSize (s.bank a).len.toNat + 4 ≤ j → j < t.rsp.r1.toNat → i < 8 →
    ((s.bank a).type = 1 →
      ∃ u, exec (.pdec b base t.rsp.r1) (flipBit t (base.toNat + j) i) = .next u ∧
        Fails (flipBit t (base.toNat + j) i) u .checksumMismatch) ∧
    ((s.bank a).type ≠ 1 →
      ∃ u v, exec (.pdec b base t.rsp.r1) (flipBit t (base.toNat + j) i) = .next u ∧
        exec (.pdec b base t.rsp.r1) t = .next v ∧ u.rsp = v.rsp ∧ u.rsp.st = .ok ∧ u.bank b = v.bank b)

/-! ### Host access to the buffer memory -/

/-- `BMWR` (R260). -/
def Obligations.BmwrWritesOneByte : Prop :=
  ∀ (addr : Half) (byte : Byte) (s : State),
    (addr.toNat < s.params.bmSize →
      ∃ t, exec (.bmwr addr byte) s = .next t ∧ Responds t .ok 0 1 ∧ Stores s t addr.toNat 1 (fun _ => byte)) ∧
    (s.params.bmSize ≤ addr.toNat → ∃ t, exec (.bmwr addr byte) s = .next t ∧ Fails s t .addressError) ∧
    (Instr.bmwr addr byte).HasEncoding 0x40 .b8 (fun f => f.b = addr ∧ f.a8 = byte)

/-- `BMRD` (R261). -/
def Obligations.BmrdReadsOneByte : Prop :=
  ∀ (addr : Half) (s : State),
    (addr.toNat < s.params.bmSize →
      ∃ t, exec (.bmrd addr) s = .next t ∧ OnlyResponds s t .ok ((s.bmByte addr.toNat).setWidth 32) 1) ∧
    (s.params.bmSize ≤ addr.toNat → ∃ t, exec (.bmrd addr) s = .next t ∧ Fails s t .addressError) ∧
    (Instr.bmrd addr).HasEncoding 0x41 .b (fun f => f.b = addr)

/-- A read after a write returns the value written, and a byte not written keeps its value, unspecified or not
(R62, R70, R75). -/
def Obligations.BmrdAfterBmwr : Prop :=
  ∀ (addr c : Half) (byte : Byte) (s t : State), exec (.bmwr addr byte) s = .next t → t.rsp.st = .ok →
    c.toNat < s.params.bmSize →
    ∃ u, exec (.bmrd c) t = .next u ∧
      OnlyResponds t u .ok ((if c = addr then byte else s.bmByte c.toNat).setWidth 32) 1
end

