-- ==== Sys2Proof/Laws/State.lean ====
section
/-! SUPPORT. One lemma for each field after each update of the state, so that no later proof unfolds a record
update, and what the readers `bank`, `bmByte` and `plByte` see after it. -/

namespace Sys2Proof.Machine

variable (s : State) (k j : BankId) (b : Bank) (r : Rsp)

/-! ### `respond` -/

@[simp] theorem State.respond_p0 : (s.respond r).p0 = s.p0 := rfl
@[simp] theorem State.respond_p1 : (s.respond r).p1 = s.p1 := rfl
@[simp] theorem State.respond_rsp : (s.respond r).rsp = r := rfl
@[simp] theorem State.respond_bm : (s.respond r).bm = s.bm := rfl
@[simp] theorem State.respond_params : (s.respond r).params = s.params := rfl
@[simp] theorem State.respond_inputs : (s.respond r).inputs = s.inputs := rfl
@[simp] theorem State.respond_resets : (s.respond r).resets = s.resets := rfl
@[simp] theorem State.respond_rspValid : (s.respond r).rspValid = true := rfl

/-! ### `ok` -/

@[simp] theorem State.ok_p0 (r0 : Word) (r1 : Nat) : (s.ok r0 r1).p0 = s.p0 := rfl
@[simp] theorem State.ok_p1 (r0 : Word) (r1 : Nat) : (s.ok r0 r1).p1 = s.p1 := rfl
@[simp] theorem State.ok_rsp (r0 : Word) (r1 : Nat) : (s.ok r0 r1).rsp = { st := .ok, r0 := r0, r1 := BitVec.ofNat 16 r1 } := rfl
@[simp] theorem State.ok_bm (r0 : Word) (r1 : Nat) : (s.ok r0 r1).bm = s.bm := rfl
@[simp] theorem State.ok_params (r0 : Word) (r1 : Nat) : (s.ok r0 r1).params = s.params := rfl
@[simp] theorem State.ok_inputs (r0 : Word) (r1 : Nat) : (s.ok r0 r1).inputs = s.inputs := rfl
@[simp] theorem State.ok_resets (r0 : Word) (r1 : Nat) : (s.ok r0 r1).resets = s.resets := rfl
@[simp] theorem State.ok_rspValid (r0 : Word) (r1 : Nat) : (s.ok r0 r1).rspValid = true := rfl

/-! ### `raise` -/

@[simp] theorem State.raise_p0 (kind : Status) : (s.raise kind).p0 = s.p0 := rfl
@[simp] theorem State.raise_p1 (kind : Status) : (s.raise kind).p1 = s.p1 := rfl
@[simp] theorem State.raise_rsp (kind : Status) : (s.raise kind).rsp = { st := kind, r0 := 0, r1 := 0 } := rfl
@[simp] theorem State.raise_bm (kind : Status) : (s.raise kind).bm = s.bm := rfl
@[simp] theorem State.raise_params (kind : Status) : (s.raise kind).params = s.params := rfl
@[simp] theorem State.raise_inputs (kind : Status) : (s.raise kind).inputs = s.inputs := rfl
@[simp] theorem State.raise_resets (kind : Status) : (s.raise kind).resets = s.resets := rfl
@[simp] theorem State.raise_rspValid (kind : Status) : (s.raise kind).rspValid = true := rfl

/-! ### `memWrite` -/

@[simp] theorem State.memWrite_p0 (a : Nat) (bytes : List Byte) : (s.memWrite a bytes).p0 = s.p0 := rfl
@[simp] theorem State.memWrite_p1 (a : Nat) (bytes : List Byte) : (s.memWrite a bytes).p1 = s.p1 := rfl
@[simp] theorem State.memWrite_rsp (a : Nat) (bytes : List Byte) : (s.memWrite a bytes).rsp = s.rsp := rfl
@[simp] theorem State.memWrite_bm (a : Nat) (bytes : List Byte) : (s.memWrite a bytes).bm = s.bm.setBytes a bytes := rfl
@[simp] theorem State.memWrite_params (a : Nat) (bytes : List Byte) : (s.memWrite a bytes).params = s.params := rfl
@[simp] theorem State.memWrite_inputs (a : Nat) (bytes : List Byte) : (s.memWrite a bytes).inputs = s.inputs := rfl
@[simp] theorem State.memWrite_resets (a : Nat) (bytes : List Byte) : (s.memWrite a bytes).resets = s.resets := rfl
@[simp] theorem State.memWrite_rspValid (a : Nat) (bytes : List Byte) : (s.memWrite a bytes).rspValid = s.rspValid := rfl

/-! ### `applyReset` -/

@[simp] theorem State.applyReset_p0 : (s.applyReset).p0 = Bank.reset := rfl
@[simp] theorem State.applyReset_p1 : (s.applyReset).p1 = Bank.reset := rfl
@[simp] theorem State.applyReset_rsp : (s.applyReset).rsp = Rsp.reset := rfl
@[simp] theorem State.applyReset_bm : (s.applyReset).bm = [] := rfl
@[simp] theorem State.applyReset_params : (s.applyReset).params = s.params := rfl
@[simp] theorem State.applyReset_inputs : (s.applyReset).inputs = s.inputs := rfl
@[simp] theorem State.applyReset_resets : (s.applyReset).resets = s.resets + 1 := rfl
@[simp] theorem State.applyReset_rspValid : (s.applyReset).rspValid = false := rfl

/-! ### `idle` -/

@[simp] theorem State.idle_p0 : (s.idle).p0 = s.p0 := rfl
@[simp] theorem State.idle_p1 : (s.idle).p1 = s.p1 := rfl
@[simp] theorem State.idle_rsp : (s.idle).rsp = s.rsp := rfl
@[simp] theorem State.idle_bm : (s.idle).bm = s.bm := rfl
@[simp] theorem State.idle_params : (s.idle).params = s.params := rfl
@[simp] theorem State.idle_inputs : (s.idle).inputs = s.inputs := rfl
@[simp] theorem State.idle_resets : (s.idle).resets = s.resets := rfl
@[simp] theorem State.idle_rspValid : (s.idle).rspValid = false := rfl

/-! ### `dropInput` -/

@[simp] theorem State.dropInput_p0 : (s.dropInput).p0 = s.p0 := rfl
@[simp] theorem State.dropInput_p1 : (s.dropInput).p1 = s.p1 := rfl
@[simp] theorem State.dropInput_rsp : (s.dropInput).rsp = s.rsp := rfl
@[simp] theorem State.dropInput_bm : (s.dropInput).bm = s.bm := rfl
@[simp] theorem State.dropInput_params : (s.dropInput).params = s.params := rfl
@[simp] theorem State.dropInput_inputs : (s.dropInput).inputs = s.inputs.tail := rfl
@[simp] theorem State.dropInput_resets : (s.dropInput).resets = s.resets := rfl
@[simp] theorem State.dropInput_rspValid : (s.dropInput).rspValid = s.rspValid := rfl

/-! ### `setBank` -/

@[simp] theorem State.setBank_rsp : (s.setBank k b).rsp = s.rsp := by cases k <;> rfl
@[simp] theorem State.setBank_bm : (s.setBank k b).bm = s.bm := by cases k <;> rfl
@[simp] theorem State.setBank_params : (s.setBank k b).params = s.params := by cases k <;> rfl
@[simp] theorem State.setBank_inputs : (s.setBank k b).inputs = s.inputs := by cases k <;> rfl
@[simp] theorem State.setBank_resets : (s.setBank k b).resets = s.resets := by cases k <;> rfl
@[simp] theorem State.setBank_rspValid : (s.setBank k b).rspValid = s.rspValid := by cases k <;> rfl
@[simp] theorem State.setBank_p0_p0 : (s.setBank .p0 b).p0 = b := rfl
@[simp] theorem State.setBank_p0_p1 : (s.setBank .p0 b).p1 = s.p1 := rfl
@[simp] theorem State.setBank_p1_p0 : (s.setBank .p1 b).p0 = s.p0 := rfl
@[simp] theorem State.setBank_p1_p1 : (s.setBank .p1 b).p1 = b := rfl

/-! ### What `bank` reads -/

@[simp] theorem State.bank_p0 : s.bank .p0 = s.p0 := rfl
@[simp] theorem State.bank_p1 : s.bank .p1 = s.p1 := rfl
@[simp] theorem State.bank_respond : (s.respond r).bank k = s.bank k := by cases k <;> rfl
@[simp] theorem State.bank_ok (r0 : Word) (r1 : Nat) : (s.ok r0 r1).bank k = s.bank k := by cases k <;> rfl
@[simp] theorem State.bank_raise (kind : Status) : (s.raise kind).bank k = s.bank k := by cases k <;> rfl
@[simp] theorem State.bank_memWrite (a : Nat) (bytes : List Byte) : (s.memWrite a bytes).bank k = s.bank k := by
  cases k <;> rfl
@[simp] theorem State.bank_idle : s.idle.bank k = s.bank k := by cases k <;> rfl
@[simp] theorem State.bank_dropInput : s.dropInput.bank k = s.bank k := by cases k <;> rfl
@[simp] theorem State.bank_applyReset : s.applyReset.bank k = Bank.reset := by cases k <;> rfl
@[simp] theorem State.bank_setBank_same : (s.setBank k b).bank k = b := by cases k <;> rfl

theorem State.bank_setBank_of_ne (h : j ≠ k) : (s.setBank k b).bank j = s.bank j := by
  cases k <;> cases j <;> first | rfl | exact absurd rfl h

/-- A bank after a bank update: the new one where it was put, the old one elsewhere. -/
theorem State.bank_setBank : (s.setBank k b).bank j = if j = k then b else s.bank j := by
  cases k <;> cases j <;> rfl

/-! ### What `bmByte` reads -/

@[simp] theorem State.bmByte_respond : (s.respond r).bmByte = s.bmByte := rfl
@[simp] theorem State.bmByte_ok (r0 : Word) (r1 : Nat) : (s.ok r0 r1).bmByte = s.bmByte := rfl
@[simp] theorem State.bmByte_raise (kind : Status) : (s.raise kind).bmByte = s.bmByte := rfl
@[simp] theorem State.bmByte_idle : s.idle.bmByte = s.bmByte := rfl
@[simp] theorem State.bmByte_dropInput : s.dropInput.bmByte = s.bmByte := rfl
@[simp] theorem State.bmByte_setBank : (s.setBank k b).bmByte = s.bmByte := by cases k <;> rfl

/-- After reset every byte of the buffer memory is unspecified anew (R62, R310). -/
@[simp] theorem State.bmByte_applyReset (a : Nat) : s.applyReset.bmByte a = Config.bmUnwritten (s.resets + 1) a := rfl

/-! ### What `plByte` reads -/

@[simp] theorem State.plByte_respond : (s.respond r).plByte k = s.plByte k := by cases k <;> rfl
@[simp] theorem State.plByte_ok (r0 : Word) (r1 : Nat) : (s.ok r0 r1).plByte k = s.plByte k := by cases k <;> rfl
@[simp] theorem State.plByte_raise (kind : Status) : (s.raise kind).plByte k = s.plByte k := by cases k <;> rfl
@[simp] theorem State.plByte_memWrite (a : Nat) (bytes : List Byte) :
    (s.memWrite a bytes).plByte k = s.plByte k := by cases k <;> rfl

/-- A payload byte depends on the bank's store and on the reset counter alone. -/
theorem State.plByte_congr (s t : State) (h : (t.bank k).pl = (s.bank k).pl) (hr : t.resets = s.resets) :
    t.plByte k = s.plByte k := by
  funext i
  simp only [State.plByte, h, hr]

/-! ### The range check and the engines -/

@[simp] theorem State.inRange_iff (base : Half) (n : Nat) :
    s.inRange base n = true ↔ base.toNat + n ≤ s.params.bmSize := by simp [State.inRange]

/-- Both engines compute the one function of this build (R150, R155). -/
@[simp] theorem State.crc_eq (e : Engine) (bytes : List Byte) : s.crc e bytes = crc32Of s.params.crc32 bytes := rfl

end Sys2Proof.Machine
end

