-- ==== Sys2Proof/Laws/Memory.lean ====
section
/-! SUPPORT. The laws of a memory: a read after a write gives the value written there and leaves every other place
alone; a write keeps the canonical form and any bound on the addresses. -/

namespace Sys2Proof.Machine

/-! ### Reading after writing -/

theorem Memory.get?_set (m : Memory) (a c : Nat) (v : Byte) :
    (m.set a v).get? c = if c = a then some v else m.get? c := by
  induction m with
  | nil =>
    by_cases h : c = a
    · simp [Memory.set, Memory.get?, h]
    · simp [Memory.set, Memory.get?, h, Ne.symm h]
  | cons e rest ih =>
    obtain ⟨x, u⟩ := e
    simp only [Memory.set]
    by_cases h1 : a < x
    · by_cases h : c = a
      · simp [Memory.get?, h1, h]
      · simp [Memory.get?, h1, h, Ne.symm h]
    · by_cases h2 : x = a
      · by_cases h : c = a
        · simp [Memory.get?, h2, h]
        · simp [Memory.get?, h2, h, Ne.symm h]
      · by_cases h : x = c
        · have hc : c ≠ a := fun e => h2 (h.trans e)
          rw [if_neg h1, if_neg h2, if_neg hc, Memory.get?, Memory.get?, if_pos h, if_pos h]
        · simp [Memory.get?, h1, h2, h, ih]

/-- What a run of bytes leaves: each byte at its place, every other address as it was. -/
theorem Memory.get?_setBytes (bytes : List Byte) (m : Memory) (a c : Nat) :
    (m.setBytes a bytes).get? c =
      if h : a ≤ c ∧ c - a < bytes.length then some (bytes[c - a]'h.2) else m.get? c := by
  induction bytes generalizing m a with
  | nil => simp [Memory.setBytes]
  | cons v rest ih =>
    rw [Memory.setBytes, ih, Memory.get?_set]
    by_cases h : a + 1 ≤ c ∧ c - (a + 1) < rest.length
    · rw [dif_pos h, dif_pos ⟨by omega, by simp only [List.length_cons]; omega⟩]
      have e : c - a = c - (a + 1) + 1 := by omega
      simp only [e, List.getElem_cons_succ]
    · rw [dif_neg h]
      by_cases hc : c = a
      · subst hc
        simp
      · rw [if_neg hc, dif_neg (by simp only [List.length_cons]; omega)]

/-! ### The canonical form -/

theorem Memory.mem_set (m : Memory) (a : Nat) (v : Byte) (e : Host.Cell) (h : e ∈ m.set a v) :
    e = (a, v) ∨ e ∈ m := by
  induction m with
  | nil => simpa [Memory.set] using h
  | cons d rest ih =>
    obtain ⟨x, u⟩ := d
    simp only [Memory.set] at h
    split at h
    · simpa using h
    · split at h
      · rcases List.mem_cons.1 h with h | h
        · exact .inl h
        · exact .inr (List.mem_cons_of_mem _ h)
      · rcases List.mem_cons.1 h with h | h
        · exact .inr (h ▸ List.mem_cons_self)
        · exact (ih h).imp_right (List.mem_cons_of_mem _)

/-- A write keeps the addresses strictly rising. -/
theorem Memory.wf_set (m : Memory) (a : Nat) (v : Byte) (h : m.wf) : (m.set a v).wf := by
  induction m with
  | nil => simp [Memory.set]
  | cons d rest ih =>
    obtain ⟨x, u⟩ := d
    obtain ⟨hd, hr⟩ := List.pairwise_cons.1 h
    simp only [Memory.set]
    split
    · refine List.pairwise_cons.2 ⟨fun e he => ?_, h⟩
      rcases List.mem_cons.1 he with he | he
      · simp_all
      · have := hd e he
        simp_all
        omega
    · split
      · subst_vars
        exact List.pairwise_cons.2 ⟨hd, hr⟩
      · refine List.pairwise_cons.2 ⟨fun e he => ?_, ih hr⟩
        rcases Memory.mem_set rest a v e he with he | he
        · simp_all
          omega
        · exact hd e he

theorem Memory.wf_setBytes (bytes : List Byte) (m : Memory) (a : Nat) (h : m.wf) : (m.setBytes a bytes).wf := by
  induction bytes generalizing m a with
  | nil => exact h
  | cons v rest ih => exact ih _ _ (Memory.wf_set m a v h)

/-- A run of bytes that ends below a bound keeps the addresses below it. -/
theorem Memory.bounded_setBytes (bytes : List Byte) (m : Memory) (a n : Nat)
    (h : ∀ e ∈ m, e.1 < n) (ha : a + bytes.length ≤ n) : ∀ e ∈ m.setBytes a bytes, e.1 < n := by
  induction bytes generalizing m a with
  | nil => exact h
  | cons v rest ih =>
    simp only [List.length_cons] at ha
    refine ih _ _ (fun e he => ?_) (by omega)
    rcases Memory.mem_set m a v e he with rfl | he
    · show a < n
      omega
    · exact h e he

/-! ### Slices -/

@[simp] theorem slice_length (f : Nat → Byte) (a n : Nat) : (slice f a n).length = n := by
  induction n generalizing a with
  | zero => rfl
  | succ n ih => simp [slice, ih]

@[simp] theorem slice_getElem (f : Nat → Byte) (a n i : Nat) (h : i < (slice f a n).length) :
    (slice f a n)[i] = f (a + i) := by
  induction n generalizing a i with
  | zero => simp [slice] at h
  | succ n ih =>
    cases i with
    | zero => rfl
    | succ i =>
      simp only [slice, List.getElem_cons_succ, ih]
      congr 1
      omega

/-- A slice depends only on the bytes it takes. -/
theorem slice_congr {f g : Nat → Byte} {a b n : Nat} (h : ∀ i, i < n → f (a + i) = g (b + i)) :
    slice f a n = slice g b n := by
  apply List.ext_getElem
  · simp
  · intro i h1 h2
    simp only [slice_length] at h1
    simp [h i h1]

/-! ### The buffer memory -/

/-- A byte of the buffer memory after a run of bytes was written. -/
theorem State.bmByte_memWrite (s : State) (a c : Nat) (bytes : List Byte) :
    (s.memWrite a bytes).bmByte c =
      if h : a ≤ c ∧ c - a < bytes.length then bytes[c - a]'h.2 else s.bmByte c := by
  simp only [State.bmByte, State.memWrite_bm, State.memWrite_resets, Memory.get?_setBytes]
  by_cases h : a ≤ c ∧ c - a < bytes.length <;> simp [h]

theorem State.bmByte_memWrite_inside (s : State) (a i : Nat) (bytes : List Byte) (h : i < bytes.length) :
    (s.memWrite a bytes).bmByte (a + i) = bytes[i] := by
  rw [State.bmByte_memWrite, dif_pos ⟨by omega, by omega⟩]
  simp

theorem State.bmByte_memWrite_outside (s : State) (a c : Nat) (bytes : List Byte)
    (h : c < a ∨ a + bytes.length ≤ c) : (s.memWrite a bytes).bmByte c = s.bmByte c := by
  rw [State.bmByte_memWrite, dif_neg (by omega)]

@[simp] theorem State.memRead_length (s : State) (a n : Nat) : (s.memRead a n).length = n := slice_length _ _ _

/-! ### The payload stores -/

/-- A payload byte after bytes were copied to the start of a bank's store. -/
theorem Bank.get?_pl_setBytes (b : Bank) (bytes : List Byte) (i : Nat) :
    (b.pl.setBytes 0 bytes).get? i = if h : i < bytes.length then some bytes[i] else b.pl.get? i := by
  rw [Memory.get?_setBytes]
  by_cases h : i < bytes.length <;> simp [h]

end Sys2Proof.Machine
end

