-- ==== Sys2Proof/Laws/Varint.lean ====
section
/-! SUPPORT. What the three varint functions can answer, once: `vpredict` and `venc` by the size of the value, `vdec`
by the first byte. -/

namespace Sys2Proof.Machine

/-! ### `vpredict` -/

theorem vpredict_eq (v : Half) :
    vpredict v = if v.toNat ≤ 127 then some 1 else if v.toNat ≤ 32767 then some 2 else none := rfl

theorem vpredict_one {v : Half} (h : v.toNat ≤ 127) : vpredict v = some 1 := by simp [vpredict, h]

theorem vpredict_two {v : Half} (h1 : 128 ≤ v.toNat) (h2 : v.toNat ≤ 32767) : vpredict v = some 2 := by
  rw [vpredict_eq, if_neg (by omega), if_pos h2]

theorem vpredict_none {v : Half} (h : 32768 ≤ v.toNat) : vpredict v = none := by
  rw [vpredict_eq, if_neg (by omega), if_neg (by omega)]

/-- A stored length is always representable. -/
theorem vpredict_setWidth (v : BitVec 15) :
    vpredict (v.setWidth 16) = some (if v.toNat ≤ 127 then 1 else 2) := by
  have := v.isLt
  have h : (v.setWidth 16).toNat = v.toNat := by
    rw [BitVec.toNat_setWidth, Nat.mod_eq_of_lt (by omega)]
  simp only [vpredict_eq, h]
  split
  · rfl
  · rw [if_pos (by omega)]

/-! ### `venc` -/

theorem venc_one {v : BitVec 15} (h : v.toNat ≤ 127) : venc v = [v.extractLsb' 0 8] := by simp [venc, h]

theorem venc_two {v : BitVec 15} (h : 128 ≤ v.toNat) :
    venc v = [1#1 ++ v.extractLsb' 8 7, v.extractLsb' 0 8] := by
  have : ¬v.toNat ≤ 127 := by omega
  simp [venc, this]

theorem venc_length (v : BitVec 15) : (venc v).length = if v.toNat ≤ 127 then 1 else 2 := by
  by_cases h : v.toNat ≤ 127
  · rw [venc_one h, if_pos h]
    rfl
  · rw [venc_two (by omega), if_neg h]
    rfl

/-! ### `vdec` -/

/-- The flag bit of a first byte is clear exactly when the byte is below 128. -/
theorem flag_eq_zero_iff (x : Byte) : x.extractLsb' 7 1 = 0 ↔ x.toNat < 128 := by
  revert x
  decide

theorem vdec_nil : vdec [] = none := rfl

theorem vdec_one {x : Byte} (rest : List Byte) (h : x.toNat < 128) :
    vdec (x :: rest) = some (x.setWidth 15, 1) := by
  have hf := (flag_eq_zero_iff x).2 h
  have hm : x &&& 0x7F = x := by
    revert x
    decide
  show (if x.extractLsb' 7 1 = 0 then some ((x &&& 0x7F).zeroExtend 15, 1) else _) = _
  rw [if_pos hf, hm]

theorem vdec_short {x : Byte} (h : 128 ≤ x.toNat) : vdec [x] = none := by
  have hf : ¬x.extractLsb' 7 1 = 0 := by
    rw [flag_eq_zero_iff]
    omega
  exact if_neg hf

theorem vdec_two {x : Byte} (y : Byte) (rest : List Byte) (h : 128 ≤ x.toNat) :
    vdec (x :: y :: rest) = some (x.extractLsb' 0 7 ++ y, 2) := by
  have hf : ¬x.extractLsb' 7 1 = 0 := by
    rw [flag_eq_zero_iff]
    omega
  exact if_neg hf

/-- Everything `vdec` can answer: a byte below 128 alone, or a byte with the flag bit and the byte after it. -/
theorem vdec_eq_some {bytes : List Byte} {v : BitVec 15} {w : Nat} (h : vdec bytes = some (v, w)) :
    (∃ x rest, bytes = x :: rest ∧ x.toNat < 128 ∧ v = x.setWidth 15 ∧ w = 1) ∨
    (∃ x y rest, bytes = x :: y :: rest ∧ 128 ≤ x.toNat ∧ v = x.extractLsb' 0 7 ++ y ∧ w = 2) := by
  match bytes with
  | [] => simp [vdec] at h
  | x :: rest =>
    by_cases hx : x.toNat < 128
    · rw [vdec_one rest hx] at h
      simp only [Option.some.injEq, Prod.mk.injEq] at h
      exact .inl ⟨x, rest, rfl, hx, h.1.symm, h.2.symm⟩
    · match rest with
      | [] => simp [vdec_short (Nat.le_of_not_lt hx)] at h
      | y :: rest =>
        rw [vdec_two y rest (Nat.le_of_not_lt hx)] at h
        simp only [Option.some.injEq, Prod.mk.injEq] at h
        exact .inr ⟨x, y, rest, rfl, Nat.le_of_not_lt hx, h.1.symm, h.2.symm⟩

/-- The value of a 2-byte form, as a number. -/
theorem two_byte_value (x y : Byte) : (x.extractLsb' 0 7 ++ y).toNat = x.toNat % 128 * 256 + y.toNat := by
  rw [BitVec.toNat_append, ← Nat.shiftLeft_add_eq_or_of_lt y.isLt, BitVec.extractLsb'_toNat, Nat.shiftRight_zero,
    Nat.shiftLeft_eq]

/-- The bytes of a 2-byte form, as numbers. -/
theorem two_byte_first (v : BitVec 15) : (1#1 ++ v.extractLsb' 8 7 : BitVec 8).toNat = 128 + v.toNat / 256 := by
  have h := v.isLt
  have e : (1#1 ++ v.extractLsb' 8 7 : BitVec 8).toNat = (1#1).toNat <<< 7 ||| (v.extractLsb' 8 7).toNat :=
    BitVec.toNat_append _ _
  rw [e, ← Nat.shiftLeft_add_eq_or_of_lt (BitVec.isLt _), BitVec.extractLsb'_toNat, Nat.shiftRight_eq_div_pow]
  simp [Nat.shiftLeft_eq]
  omega

end Sys2Proof.Machine
end

