-- ==== Sys2Proof/Laws/Exec.lean ====
section
/-! SUPPORT. What an instruction can answer, once for all thirty: a failure, a response alone, a bank replaced, or bytes
stored, each with what bounds it. -/

namespace Sys2Proof.Machine

/-- What holds of the bank `b` that instruction `i` puts in the place of bank `k`. -/
structure BankStep (s : State) (i : Instr) (k : BankId) (b : Bank) : Prop where
  names : writesBank i k = true
  legal : (s.bank k).Legal → b.Legal
  typed : (∀ j, i ≠ .pclear j) → (s.bank k).type ≠ 0 → b.type ≠ 0

/-! ### Banks stay legal -/

theorem narrowLen_toNat {len : Half} (h : len.toNat ≤ 512) : (narrowLen len).toNat = len.toNat := by
  simp only [narrowLen, BitVec.extractLsb'_toNat, Nat.shiftRight_zero]
  exact Nat.mod_eq_of_lt (by omega)

theorem narrowPlen_toNat {n : Nat} (h : n ≤ 512) : (narrowPlen n).toNat = n := by
  simp only [narrowPlen, BitVec.toNat_ofNat]
  exact Nat.mod_eq_of_lt (by omega)

theorem ofNat_len_toNat {n : Nat} (h : n ≤ 512) : (BitVec.ofNat 15 n).toNat = n := by
  simp only [BitVec.toNat_ofNat]
  exact Nat.mod_eq_of_lt (by omega)

/-- Assigning at most 512 bytes keeps a bank legal (R180, R241). -/
theorem Bank.assignPayload_legal {b : Bank} {bytes : List Byte} (h : b.Legal) (hn : bytes.length ≤ 512) :
    (b.assignPayload bytes).Legal := by
  obtain ⟨_, _, _, hw, hb⟩ := h
  refine ⟨?_, ?_, ?_, Memory.wf_setBytes _ _ _ hw, Memory.bounded_setBytes _ _ _ _ hb (by omega)⟩
  · simp only [Bank.assignPayload, ofNat_len_toNat hn]
    exact hn
  · simp only [Bank.assignPayload, narrowPlen_toNat hn]
    exact hn
  · simp [Bank.assignPayload]

/-- Committing a shadow packet whose length is within the cap keeps a bank legal (R243). -/
theorem Bank.commit_legal {b : Bank} {d : Shadow} (h : b.Legal) (hl : d.len.toNat ≤ 512)
    (hn : ∀ c bytes, d.body = some (c, bytes) → bytes.length ≤ 512) : (b.commit d).Legal := by
  obtain ⟨_, _, _, hw, hb⟩ := h
  match hd : d.body with
  | none => exact ⟨hl, by simp [Bank.commit, hd], by simp [Bank.commit, hd], by simpa [Bank.commit, hd] using hw,
      by simpa [Bank.commit, hd] using hb⟩
  | some (c, bytes) =>
    have hn' := hn c bytes hd
    refine ⟨hl, ?_, by simp [Bank.commit, hd], ?_, ?_⟩
    · simp only [Bank.commit, hd, narrowPlen_toNat hn']
      exact hn'
    · simpa [Bank.commit, hd] using Memory.wf_setBytes _ _ _ hw
    · simpa [Bank.commit, hd] using Memory.bounded_setBytes bytes b.pl 0 512 hb (by omega)

/-! ### The decoder -/

/-- Everything `decodeBody` can answer (R230 steps 7 to 9). -/
theorem decodeBody_eq (crc : List Byte → Word) (n : Nat) (f : Nat → Byte) (hl len : Nat) (type : BitVec 2)
    (tr : BitVec 1) :
    decodeBody crc n f hl len type tr =
      if tr = 0 ∧ n < len + hl + 8 then .error .inconsistentLength
      else if tr = 0 ∧ type = 1 then
        if crc (slice f (hl + 4) len) ≠ fromBe32 f (hl + 4 + len) then .error .checksumMismatch
        else .ok (some (fromBe32 f (hl + 4 + len), slice f (hl + 4) len))
      else .ok none := rfl

/-- What a decoded shadow packet is made of (R230, R243). -/
structure Decoded (crc1 crc2 : List Byte → Word) (n : Nat) (f : Nat → Byte) (d : Shadow) (w : Nat) : Prop where
  floor : 11 ≤ n
  length : vdec (slice f 1 (n - 1)) = some (d.len, w)
  cap : d.len.toNat ≤ 512
  room : headerLength w + 4 ≤ n
  accepted : typeAccepted (byte0Type (f 0)).toNat = true
  truncated : truncatedAccepted (byte0Tr (f 0)).toNat (byte0Type (f 0)) = true
  checksum : crc1 (maskHeader (slice f 0 (headerLength w))) = fromBe32 f (headerLength w)
  body : decodeBody crc2 n f (headerLength w) d.len.toNat (byte0Type (f 0)) (byte0Tr (f 0)) = .ok d.body
  fields : d = { type := byte0Type (f 0), tr := byte0Tr (f 0), win := byte0Win (f 0), len := d.len, seq := f (1 + w),
                 ts := fromBe32 f (2 + w), crc1 := fromBe32 f (headerLength w), body := d.body,
                 size := if byte0Tr (f 0) = 0 then headerLength w + 8 + d.len.toNat else headerLength w + 4 }

/-- Everything a successful decode says. -/
theorem decodeFrame_eq_ok {crc1 crc2 : List Byte → Word} {n : Nat} {f : Nat → Byte} {d : Shadow}
    (h : decodeFrame crc1 crc2 n f = .ok d) : ∃ w, Decoded crc1 crc2 n f d w := by
  unfold decodeFrame at h
  split at h
  · simp at h
  split at h
  · simp at h
  split at h
  · simp at h
  split at h
  · simp at h
  split at h
  · simp at h
  rename_i hn7 hn11 ht htr _ len w hv
  split at h
  · simp at h
  rename_i hlen
  unfold decodeRest at h
  simp only at h
  split at h
  · simp at h
  split at h
  · simp at h
  rename_i hroom hcrc
  split at h
  · simp at h
  rename_i body hb
  simp only [Except.ok.injEq] at h
  subst h
  simp only [Config.minHdr, Config.minCrc, Config.lenCap] at hn7 hn11 hlen
  exact ⟨w, by omega, hv, by simp only; omega, by omega, by simpa using ht, by simpa using htr, by simpa using hcrc,
    hb, rfl⟩

/-- A payload that was extracted has the announced length. -/
theorem Decoded.body_length {crc1 crc2 : List Byte → Word} {n : Nat} {f : Nat → Byte} {d : Shadow} {w : Nat}
    (h : Decoded crc1 crc2 n f d w) {c : Word} {bytes : List Byte} (hd : d.body = some (c, bytes)) :
    bytes.length = d.len.toNat := by
  have hb := h.body
  rw [decodeBody_eq, hd] at hb
  split at hb
  · simp at hb
  split at hb
  · split at hb
    · simp at hb
    · simp only [Except.ok.injEq, Option.some.injEq, Prod.mk.injEq] at hb
      rw [← hb.2]
      simp
  · simp at hb

/-- The statuses a decode can fail with (R244). -/
theorem decodeFrame_eq_error {crc1 crc2 : List Byte → Word} {n : Nat} {f : Nat → Byte} {kind : Status}
    (h : decodeFrame crc1 crc2 n f = .error kind) :
    kind ∈ [Status.invalidType, .invalidTruncationFlag, .invalidLength, .headerTooShort, .checksumMismatch,
      .inconsistentLength] := by
  simp only [decodeFrame, decodeRest] at h
  repeat' split at h
  all_goals first | (simp only [reduceCtorEq] at h) | skip
  all_goals simp only [Except.error.injEq] at h
  all_goals try (subst h; simp)
  rename_i hb
  rw [decodeBody_eq] at hb
  repeat' split at hb
  all_goals first | (simp only [reduceCtorEq] at hb) | skip
  all_goals simp only [Except.error.injEq] at hb
  all_goals (subst hb; simp)

/-! ### The encoder -/

@[simp] theorem be32_length (v : Word) : (be32 v).length = 4 := rfl

@[simp] theorem plRead_length (s : State) (k : BankId) (n : Nat) : (s.plRead k n).length = n := slice_length _ _ _

theorem Bank.header_length (b : Bank) : b.header.length = headerSize b.len.toNat := by
  simp [Bank.header, venc_length, headerSize, lengthWidth]
  omega

theorem State.frame_length (s : State) (k : BankId) :
    (s.frame k).length = headerSize (s.bank k).len.toNat + 8 + (s.bank k).len.toNat := by
  simp [State.frame, Bank.header_length]
  omega

theorem frameSize_eq (len : Nat) : frameSize (lengthWidth len) len = headerSize len + 8 + len := rfl

/-! ### One lemma for all instructions -/

/-- Every next state an instruction can give. -/
inductive ExecCase (s : State) (i : Instr) : State → Prop where
  /-- It failed (R292). -/
  | failed (kind : Status) (ne : kind ≠ .ok) (mem : kind ∈ allowedStatuses i) : ExecCase s i (s.raise kind)
  /-- It answered and changed nothing else. -/
  | answered (r0 : Word) (r1 : Nat) (mem : .ok ∈ allowedStatuses i) : ExecCase s i (s.ok r0 r1)
  /-- It replaced a bank. -/
  | banked (k : BankId) (b : Bank) (r1 : Nat) (mem : .ok ∈ allowedStatuses i) (h : BankStep s i k b) :
      ExecCase s i ((s.setBank k b).ok 0 r1)
  /-- It stored bytes from the start of the range it may write. -/
  | stored (bytes : List Byte) (r0 : Word) (r1 : Nat) (mem : .ok ∈ allowedStatuses i)
      (len : bytes.length ≤ (writeRange s i).2)
      (fits : (writeRange s i).1 + (writeRange s i).2 ≤ s.params.bmSize) :
      ExecCase s i ((s.memWrite (writeRange s i).1 bytes).ok r0 r1)

/-- The varint of a representable value has the predicted width (R130, R138). -/
theorem venc_length_of_vpredict {v : Half} {w : Nat} (h : vpredict v = some w) : (venc (narrowLen v)).length = w := by
  rw [venc_length]
  by_cases h1 : v.toNat ≤ 127
  · rw [vpredict_one h1] at h
    rw [narrowLen_toNat (by omega), if_pos h1]
    exact Option.some.inj h
  · by_cases h2 : v.toNat ≤ 32767
    · rw [vpredict_two (by omega) h2] at h
      have e : (narrowLen v).toNat = v.toNat := by
        simp only [narrowLen, BitVec.extractLsb'_toNat, Nat.shiftRight_zero]
        exact Nat.mod_eq_of_lt (by omega)
      rw [e, if_neg h1]
      exact Option.some.inj h
    · simp [vpredict_none (by omega : 32768 ≤ v.toNat)] at h

/-- The width of the length field of a bank (R212). -/
theorem vpredict_len (v : BitVec 15) : vpredict (v.zeroExtend 16) = some (lengthWidth v.toNat) :=
  vpredict_setWidth v

/-- A type that `SETTYPE` accepts is not the unset one (R172). -/
theorem narrowType_ne_zero {t : Byte} (h : typeAccepted t.toNat = true) : narrowType t ≠ 0 := by
  revert t
  decide

theorem byte0Type_ne_zero {x : Byte} (h : typeAccepted (byte0Type x).toNat = true) : byte0Type x ≠ 0 := by
  revert x
  decide

/-- Everything an instruction can do. -/
theorem exec_case {i : Instr} {s t : State} (h : exec i s = .next t) : ExecCase s i t := by
  cases i <;> simp only [exec, execVpredict, execVencode, execVdecode, execCrc32, execPclear, execSettype, execSettr,
    execSetwin, execSetlen, execSetseq, execSetts, execSetcrc1, execSetcrc2, execSetpay, execGettype, execGettr, execGetwin,
    execGetlen, execGetseq, execGetts, execGetcrc1, execGetcrc2, execGetpay, execPenc, execPdec, execBmwr, execBmrd,
    execWireVarint1, execWireVarint2, execWireByte0, State.notAnOperation, State.answer, Host.Outcome.next.injEq,
    Bool.not_eq_true', ← Bool.not_eq_true, State.inRange_iff] at h
  all_goals subst h
  all_goals repeat' split
  all_goals first
    | exact .failed _ (by decide) (by simp [allowedStatuses])
    | exact .answered _ _ (by simp [allowedStatuses])
    | exact .banked _ _ _ (by simp [allowedStatuses]) ⟨by simp [writesBank], fun h => h, fun _ h => h⟩
    | skip
  · rename_i hr _ w hw hc
    refine .stored (i := .vencode _ _ _) _ _ _ (by simp [allowedStatuses]) ?_ (by simpa [writeRange] using hr)
    rw [venc_length_of_vpredict hw]
    exact Nat.le_of_not_lt hc
  · rename_i k
    exact .banked k _ 0 (by simp [allowedStatuses])
      ⟨by simp [writesBank], fun h => ⟨Nat.zero_le _, Nat.zero_le _, fun _ => rfl, h.2.2.2⟩,
      fun h _ => absurd rfl (h k)⟩
  · rename_i ht
    exact .banked _ _ 0 (by simp [allowedStatuses])
      ⟨by simp [writesBank], fun h => h, fun _ _ => narrowType_ne_zero (by simpa using ht)⟩
  · rename_i hl _ _ _
    refine .banked _ _ 0 (by simp [allowedStatuses]) ⟨by simp [writesBank], fun h => ⟨?_, h.2⟩, fun _ h => h⟩
    have e : _ ≤ 512 := Nat.le_of_not_lt hl
    simp only [narrowLen_toNat e]
    exact e
  · rename_i hl
    exact .banked _ _ _ (by simp [allowedStatuses]) ⟨by simp [writesBank],
      fun h => Bank.assignPayload_legal h (by simpa using Nat.le_of_not_lt hl), fun _ h => h⟩
  · rename_i hr _
    exact .stored (i := .getpay _ _) _ _ _ (by simp [allowedStatuses]) (by simp [writeRange])
      (by simpa [writeRange] using hr)
  · rename_i hr _ w hw _ hc
    rw [vpredict_len, Option.some.injEq] at hw
    subst hw
    refine .stored (i := .penc _ _ _) _ _ _ (by simp [allowedStatuses]) ?_ (by simpa [writeRange] using hr)
    rw [State.frame_length]
    exact Nat.le_of_not_lt hc
  · rename_i hd
    have hk := decodeFrame_eq_error hd
    refine .failed _ (fun e => ?_) ?_
    · simp [e] at hk
    · simp only [List.mem_cons, List.not_mem_nil, or_false] at hk
      rcases hk with rfl | rfl | rfl | rfl | rfl | rfl <;> simp [allowedStatuses]
  · rename_i hd
    obtain ⟨w, hw⟩ := decodeFrame_eq_ok hd
    refine .banked _ _ _ (by simp [allowedStatuses]) ⟨by simp [writesBank],
      fun h => Bank.commit_legal h hw.cap (fun c bytes hb => hw.body_length hb ▸ hw.cap), fun _ _ => ?_⟩
    rw [hw.fields]
    exact byte0Type_ne_zero hw.accepted
  · rename_i hr
    exact .stored (i := .bmwr _ _) [_] 0 1 (by simp [allowedStatuses]) (by simp [writeRange])
      (by simpa [writeRange] using hr)

end Sys2Proof.Machine
end

