-- ==== Sys2Proof/Laws/Codec.lean ====
section
/-! SUPPORT. The frame codec in the words of Safety.lean: what the decoder reads from its input, step by step, and where
each byte of an encoded frame stands. -/

namespace Sys2Proof.Machine

/-! ### Byte 0 -/

theorem byte0Type_toNat (x : Byte) : (byte0Type x).toNat = x.toNat / 64 := by
  revert x
  decide

theorem byte0Tr_toNat (x : Byte) : (byte0Tr x).toNat = x.toNat / 32 % 2 := by
  revert x
  decide

theorem byte0Win_toNat (x : Byte) : (byte0Win x).toNat = x.toNat % 32 := by
  revert x
  decide

theorem byte0Tr_eq_zero {f : Nat → Byte} : byte0Tr (f 0) = 0 ↔ inTr f = 0 := by
  rw [← BitVec.toNat_inj, byte0Tr_toNat]
  rfl

theorem byte0Type_eq_data {f : Nat → Byte} : byte0Type (f 0) = 1 ↔ inType f = 1 := by
  rw [← BitVec.toNat_inj, byte0Type_toNat]
  rfl

/-- The decoder refuses exactly the type 0 (R233). -/
theorem typeAccepted_byte0 (f : Nat → Byte) : typeAccepted (byte0Type (f 0)).toNat = true ↔ inType f ≠ 0 := by
  have h : ∀ x : Byte, typeAccepted (byte0Type x).toNat = true ↔ x.toNat / 64 ≠ 0 := by decide
  exact h _

/-- The decoder refuses exactly a set truncated bit beside a type other than DATA (R233). -/
theorem truncatedAccepted_byte0 (f : Nat → Byte) :
    truncatedAccepted (byte0Tr (f 0)).toNat (byte0Type (f 0)) = true ↔ (inTr f = 1 → inType f = 1) := by
  have h : ∀ x : Byte, truncatedAccepted (byte0Tr x).toNat (byte0Type x) = true ↔
      (x.toNat / 32 % 2 = 1 → x.toNat / 64 = 1) := by decide
  exact h _

/-! ### The length field -/

/-- The length field of an input, once the floors hold (R236, R237). -/
theorem vdec_input (f : Nat → Byte) {n : Nat} (h : 3 ≤ n) :
    ∃ v, vdec (slice f 1 (n - 1)) = some (v, inWidth f) ∧ v.toNat = inLen f := by
  obtain ⟨m, rfl⟩ : ∃ m, n = m + 3 := ⟨n - 3, by omega⟩
  have e : slice f 1 (m + 3 - 1) = f 1 :: f 2 :: slice f 3 m := rfl
  rw [e]
  by_cases hx : (f 1).toNat < 128
  · refine ⟨(f 1).setWidth 15, by rw [vdec_one _ hx, inWidth, if_pos hx], ?_⟩
    rw [inLen, if_pos hx, BitVec.toNat_setWidth]
    exact Nat.mod_eq_of_lt (by omega)
  · refine ⟨(f 1).extractLsb' 0 7 ++ f 2, by rw [vdec_two _ _ (by omega), inWidth, if_neg hx], ?_⟩
    rw [inLen, if_neg hx, two_byte_value]

theorem inWidth_cases (f : Nat → Byte) : inWidth f = 1 ∨ inWidth f = 2 := by
  unfold inWidth
  split <;> simp

theorem maskHeader_slice (f : Nat → Byte) (m : Nat) :
    maskHeader (slice f 0 (m + 1)) = (f 0 &&& 0xDF#8) :: slice f 1 m := rfl

/-! ### The whole decoder -/

/-- The decoder on an input that meets both floors, as a chain of checks on what the input announces (R230). -/
theorem decodeFrame_eq (crc1 crc2 : List Byte → Word) {n : Nat} (f : Nat → Byte) (h : 11 ≤ n) :
    ∃ v : BitVec 15, v.toNat = inLen f ∧ decodeFrame crc1 crc2 n f =
      if inType f = 0 then .error .invalidType
      else if ¬(inTr f = 1 → inType f = 1) then .error .invalidTruncationFlag
      else if 512 < inLen f then .error .invalidLength
      else decodeRest crc1 crc2 n f v (inWidth f) := by
  obtain ⟨v, hv, hl⟩ := vdec_input f (show 3 ≤ n by omega)
  refine ⟨v, hl, ?_⟩
  have h7 : ¬n < Config.minHdr := by simp; omega
  have h11 : ¬n < Config.minCrc := by simp; omega
  have ht := typeAccepted_byte0 f
  have hr := truncatedAccepted_byte0 f
  simp only [decodeFrame, if_neg h7, if_neg h11, hv, hl, Config.lenCap, Bool.not_eq_true', ← Bool.not_eq_true, ht, hr,
    Decidable.not_not]

/-- Steps 4 to 9 of the decoder in the same words (R230, R239, R241, R242). -/
theorem decodeRest_eq (crc1 crc2 : List Byte → Word) {n : Nat} (f : Nat → Byte) {v : BitVec 15}
    (hv : v.toNat = inLen f) :
    decodeRest crc1 crc2 n f v (inWidth f) =
      if n < inHeader f + 4 ∨ ¬inCrc1Ok crc1 f then .error .checksumMismatch
      else if inTr f = 0 ∧ n < inLen f + inHeader f + 8 then .error .inconsistentLength
      else if inTr f = 0 ∧ inType f = 1 ∧ ¬inCrc2Ok crc2 f then .error .checksumMismatch
      else .ok
        { type := byte0Type (f 0), tr := byte0Tr (f 0), win := byte0Win (f 0), len := v, seq := f (1 + inWidth f),
          ts := fromBe32 f (2 + inWidth f), crc1 := fromBe32 f (inHeader f),
          body := if inTr f = 0 ∧ inType f = 1 then
            some (fromBe32 f (inHeader f + 4 + inLen f), slice f (inHeader f + 4) (inLen f)) else none
          size := if inTr f = 0 then inHeader f + 8 + inLen f else inHeader f + 4 } := by
  have hh : headerLength (inWidth f) = inHeader f := rfl
  have hm : maskHeader (slice f 0 (inHeader f)) = (f 0 &&& 0xDF#8) :: slice f 1 (inHeader f - 1) := by
    rcases inWidth_cases f with h | h <;> rw [inHeader, h] <;> rfl
  simp only [decodeRest, hh, hm, hv, Config.trailer, decodeBody_eq, byte0Tr_eq_zero, byte0Type_eq_data]
  by_cases h1 : n < inHeader f + 4
  · simp only [if_pos h1, if_pos (show n < inHeader f + 4 ∨ ¬inCrc1Ok crc1 f from .inl h1)]
  by_cases h2 : inCrc1Ok crc1 f
  · have h12 : ¬(n < inHeader f + 4 ∨ ¬inCrc1Ok crc1 f) := by simp [h1, h2]
    simp only [if_neg h1, if_neg (not_not_intro h2), if_neg h12]
    by_cases h3 : inTr f = 0 ∧ n < inLen f + inHeader f + 8
    · simp only [if_pos h3]
    by_cases h4 : inTr f = 0 ∧ inType f = 1
    · by_cases h5 : inCrc2Ok crc2 f
      · have h6 : ¬(inTr f = 0 ∧ inType f = 1 ∧ ¬inCrc2Ok crc2 f) := fun h => h.2.2 h5
        simp only [if_neg h3, if_pos h4, if_neg (not_not_intro h5), if_neg h6]
      · have h6 : inTr f = 0 ∧ inType f = 1 ∧ ¬inCrc2Ok crc2 f := ⟨h4.1, h4.2, h5⟩
        simp only [if_neg h3, if_pos h4, if_pos h6, ne_eq, if_pos h5]
    · have h6 : ¬(inTr f = 0 ∧ inType f = 1 ∧ ¬inCrc2Ok crc2 f) := fun h => h4 ⟨h.1, h.2.1⟩
      simp only [if_neg h3, if_neg h4, if_neg h6]
  · have h12 : n < inHeader f + 4 ∨ ¬inCrc1Ok crc1 f := .inr h2
    simp only [if_neg h1, if_pos h12, ne_eq, if_pos h2]

/-! ### Where the bytes of a frame stand -/

/-- The bytes `l` stand at the offsets from `a`. -/
def At (f : Nat → Byte) (a : Nat) (l : List Byte) : Prop := ∀ i (h : i < l.length), f (a + i) = l[i]

theorem At.append {f : Nat → Byte} {a : Nat} {l m : List Byte} (h : At f a (l ++ m)) : At f a l ∧ At f (a + l.length) m := by
  constructor
  · intro i hi
    rw [h i (by simp; omega), List.getElem_append_left hi]
  · intro i hi
    rw [Nat.add_assoc, h (l.length + i) (by simp; omega), List.getElem_append_right (by omega)]
    simp

theorem At.slice {f : Nat → Byte} {a : Nat} {l : List Byte} (h : At f a l) : slice f a l.length = l := by
  apply List.ext_getElem
  · simp
  · intro i h1 h2; simp [h i h2]

/-- Four bytes written big-endian read back as the value (R64). -/
theorem At.be {f : Nat → Byte} {a : Nat} {v : Word} (h : At f a (be32 v)) : fromBe32 f a = v := by
  have h0 := h 0 (by simp); have h1 := h 1 (by simp); have h2 := h 2 (by simp); have h3 := h 3 (by simp)
  simp [be32] at h0 h1 h2 h3
  simp only [fromBe32, h0, h1, h2, h3]
  apply BitVec.eq_of_getLsbD_eq
  intro i hi
  simp only [BitVec.getLsbD_append, BitVec.getLsbD_extractLsb']
  repeat' split
  all_goals
    rw [decide_eq_true (by omega), Bool.true_and]
    congr 1
    omega

/-- Byte 0 by shifts and ors (R97). -/
theorem byte0_or (t : BitVec 2) (r : BitVec 1) (w : BitVec 5) :
    byte0 t r w = (t.setWidth 8 <<< 6) ||| (r.setWidth 8 <<< 5) ||| w.setWidth 8 := by
  revert t r w; decide

/-- The first byte of a 2-byte length field by shift and or (R102). -/
theorem first_or (v : BitVec 15) :
    (1#1 ++ v.extractLsb' 8 7 : Byte) = 0x80#8 ||| (v >>> 8).setWidth 8 := by
  have : (v >>> 8).setWidth 8 = (v.extractLsb' 8 7).setWidth 8 := by
    apply BitVec.eq_of_toNat_eq
    have := v.isLt
    simp [BitVec.extractLsb'_toNat, Nat.shiftRight_eq_div_pow]
    omega
  rw [this]
  generalize v.extractLsb' 8 7 = u
  revert u; decide

/-- Everything the encoder's output is: the frame of its bank (R210, R96). -/
theorem State.frame_isFrame {s : State} {k : BankId} {f : Nat → Byte} {base : Nat} (h : At f base (s.frame k)) :
    IsFrame (crc32Of s.params.crc32) s.params.encMaskTr (s.bank k) (s.plByte k) f base := by
  unfold State.frame at h
  simp only at h
  obtain ⟨h, h2⟩ := h.append
  obtain ⟨h, hp⟩ := h.append
  obtain ⟨h, h1⟩ := h.append
  have hh := h
  unfold Bank.header at h
  obtain ⟨h, hts⟩ := h.append
  obtain ⟨h, hsq⟩ := h.append
  obtain ⟨hb, hv⟩ := h.append
  have hl := Bank.header_length (s.bank k)
  simp [hl] at h1 h2 hp
  have hvl : (venc (s.bank k).len).length = lengthWidth (s.bank k).len.toNat := by rw [venc_length]; rfl
  simp [hvl] at hsq hts hv
  have e0 : f base = byte0 (s.bank k).type (s.bank k).tr (s.bank k).win := by simpa using hb 0 (by simp)
  unfold IsFrame
  intro len w hlen
  have hsl : slice f base hlen = (s.bank k).header := by rw [← hh.slice, hl]
  have hs2 : hlen = (hlen - 1) + 1 := by simp [hlen, headerSize]; omega
  refine ⟨?_, ?_, ?_, ?_, ?_, ?_, ?_, ?_⟩
  · rw [← byte0_or]; exact e0
  · intro hh
    rw [venc_one hh] at hv
    have := hv 0 (by simp)
    simp at this
    rw [this]; rfl
  · intro hh
    rw [venc_two hh] at hv
    have h0 := hv 0 (by simp)
    have h1 := hv 1 (by simp)
    simp at h0 h1
    rw [show base + 2 = base + 1 + 1 from rfl, h1, h0]
    exact ⟨first_or _, rfl⟩
  · have := hsq 0 (by simp)
    simpa [Nat.add_assoc, Nat.add_comm, Nat.add_left_comm] using this
  · have := hts.be
    rw [← this]; congr 1; simp [w, len]; omega
  · rw [show base + hlen = base + headerSize (s.bank k).len.toNat from rfl, h1.be]
    congr 1
    unfold State.crc1Input
    split
    · rw [← hsl, hs2]; rfl
    · rw [hsl]
  · intro i hi
    have := hp i (by simpa using hi)
    simp [State.plRead] at this
    rw [← this]; congr 1
  · have e : base + hlen + 4 + len = base + (headerSize (s.bank k).len.toNat + (4 + (s.bank k).len.toNat)) := by
      simp only [hlen, len]
      omega
    rw [e]
    exact h2.be

/-- A run of bytes just written stands where it was written (R68). -/
theorem State.at_memWrite (s : State) (a : Nat) (bytes : List Byte) : At (s.memWrite a bytes).bmByte a bytes :=
  fun i h => State.bmByte_memWrite_inside s a i bytes h

/-! ### The checksum -/

theorem crcBit_eq (z : Word) : crcBit z = if z.getLsbD 0 = true then (z >>> 1) ^^^ 0xEDB88320 else z >>> 1 := by
  have hz : z.extractLsb' 0 1 = 1 ↔ z.getLsbD 0 = true := by
    rw [← BitVec.toNat_inj, BitVec.extractLsb'_toNat]
    simp [BitVec.getLsbD, Nat.testBit_zero]
  unfold crcBit
  simp only [hz]

/-- The bit that falls out of a bit step shows at the top: the reflected polynomial has its top bit set (R152). -/
theorem crcBit_top (z : Word) : (crcBit z).getLsbD 31 = z.getLsbD 0 := by
  rw [crcBit_eq]
  by_cases hb : z.getLsbD 0 = true
  · rw [if_pos hb, BitVec.getLsbD_xor, hb]
    simp
  · rw [if_neg hb, BitVec.getLsbD_ushiftRight, BitVec.getLsbD_of_ge _ _ (by omega)]
    simpa using hb

/-- A bit step loses nothing. -/
theorem crcBit_injective {x y : Word} (h : crcBit x = crcBit y) : x = y := by
  have h0 : x.getLsbD 0 = y.getLsbD 0 := by rw [← crcBit_top, h, crcBit_top]
  have h1 : x >>> 1 = y >>> 1 := by
    rw [crcBit_eq, crcBit_eq, h0] at h
    split at h
    · exact (BitVec.xor_left_inj _).1 h
    · exact h
  apply BitVec.eq_of_getLsbD_eq
  intro i _
  cases i with
  | zero => exact h0
  | succ j =>
    have := congrArg (fun z => z.getLsbD j) h1
    simpa [BitVec.getLsbD_ushiftRight, Nat.add_comm] using this

theorem crcBits_injective (n : Nat) {x y : Word} (h : crcBits n x = crcBits n y) : x = y := by
  induction n generalizing x y with
  | zero => exact h
  | succ n ih => exact crcBit_injective (ih h)

theorem crcAcc_append (acc : Word) (l m : List Byte) : crcAcc acc (l ++ m) = crcAcc (crcAcc acc l) m := by
  induction l generalizing acc with
  | nil => rfl
  | cons x rest ih => exact ih _

/-- Different accumulators stay different over the same bytes. -/
theorem crcAcc_injective (l : List Byte) {x y : Word} (h : crcAcc x l = crcAcc y l) : x = y := by
  induction l generalizing x y with
  | nil => exact h
  | cons b rest ih => exact (BitVec.xor_left_inj _).1 (crcBits_injective 8 (ih h))

end Sys2Proof.Machine
end

