-- ==== Sys2Proof/Laws/Decode.lean ====
section
/-! SUPPORT. The command word and its fields: taking the fields of a word built from fields gives them back, a word
is built from its own fields, and what a successful decoding says. -/

namespace Sys2Proof

@[simp] theorem CmdFields.ofCmd_toCmd (f : CmdFields) : CmdFields.ofCmd f.toCmd = f := by
  obtain ⟨op, z, k, b, a⟩ := f
  simp only [CmdFields.ofCmd, CmdFields.toCmd, CmdFields.mk.injEq]
  refine ⟨?_, ?_, ?_, ?_, ?_⟩ <;>
    · ext i hi
      simp only [BitVec.getElem_extractLsb', BitVec.getLsbD_append]
      repeat' split
      all_goals first | omega | (simp only [← BitVec.getLsbD_eq_getElem]; congr 1; omega)

@[simp] theorem CmdFields.toCmd_ofCmd (w : Cmd) : (CmdFields.ofCmd w).toCmd = w := by
  apply BitVec.eq_of_getLsbD_eq
  intro i hi
  simp only [CmdFields.ofCmd, CmdFields.toCmd, BitVec.getLsbD_append, BitVec.getLsbD_extractLsb']
  repeat' split
  all_goals
    rw [decide_eq_true (by omega), Bool.true_and]
    congr 1
    omega

/-- Everything a successful decoding of a command word says (R94). -/
theorem decodeCommand_eq_ok {w : Cmd} {i : Instr} (h : decodeCommand w = .ok i) :
    ∃ fmt build, operation (CmdFields.ofCmd w).op = some (fmt, build) ∧ (CmdFields.ofCmd w).z = 0 ∧
      fmt.stray (CmdFields.ofCmd w) = false ∧ i = build (CmdFields.ofCmd w) := by
  simp only [decodeCommand] at h
  split at h
  · simp at h
  · rename_i fmt build ho
    split at h
    · simp at h
    · rename_i hz
      split at h
      · simp at h
      · rename_i hs
        simp only [Except.ok.injEq] at h
        exact ⟨fmt, build, ho, by simpa using hz, by simpa using hs, h.symm⟩

/-- A word whose fields pass the three checks decodes to what its opcode builds (R94). -/
theorem decodeCommand_toCmd {f : CmdFields} {fmt : Format} {build : CmdFields → Instr}
    (ho : operation f.op = some (fmt, build)) (hz : f.z = 0) (hs : fmt.stray f = false) :
    decodeCommand f.toCmd = .ok (build f) := by
  simp [decodeCommand, ho, hz, hs]

@[simp] theorem BankId.ofBit_bit (k : BankId) : BankId.ofBit k.bit = k := by cases k <;> rfl
@[simp] theorem Engine.ofBit_bit (e : Engine) : Engine.ofBit e.bit = e := by cases e <;> rfl

theorem BankId.bit_ofBit (k : BitVec 1) : (BankId.ofBit k).bit = k := by
  revert k
  decide

theorem Engine.bit_ofBit (e : BitVec 1) : (Engine.ofBit e).bit = e := by
  revert e
  decide

/-! ### No stray bit in a value field -/

theorem zero_append_shift {n m : Nat} (y : BitVec m) : ((0#n) ++ y) >>> m = 0 := by
  apply BitVec.eq_of_getLsbD_eq
  intro i _
  simp [BitVec.getLsbD_append]

@[simp] theorem half_shift (y : Half) : (0#16 ++ y : Word) >>> 16 = 0#32 := zero_append_shift y
@[simp] theorem byte_shift (y : Byte) : (0#24 ++ y : Word) >>> 8 = 0#32 := zero_append_shift y
@[simp] theorem word_shift (y : Word) : y >>> 32 = 0#32 := BitVec.ushiftRight_eq_zero (Nat.le_refl 32)

/-! ### The parts of field `a` -/

@[simp] theorem low_half (x y : Half) : (x ++ y : Word).extractLsb' 0 16 = y :=
  BitVec.extractLsb'_append_eq_right

@[simp] theorem high_half (x y : Half) : (x ++ y : Word).extractLsb' 16 16 = x :=
  BitVec.extractLsb'_append_eq_left

@[simp] theorem low_byte (y : Byte) : (0#24 ++ y : Word).extractLsb' 0 8 = y :=
  BitVec.extractLsb'_append_eq_right

/-- A value with no bit above its low `m` bits is those bits with zeros in front. -/
theorem append_low_of_shift {n m : Nat} (a : BitVec (n + m)) (h : a >>> m = 0) : 0#n ++ a.extractLsb' 0 m = a := by
  apply BitVec.eq_of_getLsbD_eq
  intro i hi
  by_cases hm : i < m
  · simp [BitVec.getLsbD_append, hm]
  · have e := congrArg (fun x => x.getLsbD (i - m)) h
    have hi' : m + (i - m) = i := by omega
    simp only [BitVec.getLsbD_ushiftRight, hi'] at e
    simp [BitVec.getLsbD_append, hm, e]

theorem append_low_half {a : Word} (h : a >>> 16 = 0) : (0#16 ++ a.extractLsb' 0 16 : Word) = a :=
  append_low_of_shift (n := 16) (m := 16) a h

theorem append_low_byte {a : Word} (h : a >>> 8 = 0) : (0#24 ++ a.extractLsb' 0 8 : Word) = a :=
  append_low_of_shift (n := 24) (m := 8) a h

/-- A word is its high half in front of its low half. -/
theorem append_halves (a : Word) : (a.extractLsb' 16 16 ++ a.extractLsb' 0 16 : Word) = a := by
  apply BitVec.eq_of_getLsbD_eq
  intro i hi
  simp only [BitVec.getLsbD_append, BitVec.getLsbD_extractLsb']
  split
  · simp [*]
  · rw [decide_eq_true (by omega), Bool.true_and]
    congr 1
    omega

/-! ### The rows of the table -/

/-- Two words are equal when their fields are. -/
theorem CmdFields.ofCmd_inj {v w : Cmd} : CmdFields.ofCmd v = CmdFields.ofCmd w ↔ v = w :=
  ⟨fun h => by rw [← CmdFields.toCmd_ofCmd v, h, CmdFields.toCmd_ofCmd], fun h => by rw [h]⟩

theorem CmdFields.ofCmd_and (v w : Cmd) :
    CmdFields.ofCmd (v &&& w) =
      { op := (ofCmd v).op &&& (ofCmd w).op, z := (ofCmd v).z &&& (ofCmd w).z, k := (ofCmd v).k &&& (ofCmd w).k,
        b := (ofCmd v).b &&& (ofCmd w).b, a := (ofCmd v).a &&& (ofCmd w).a } := by
  simp [CmdFields.ofCmd, BitVec.extractLsb'_and]

/-- The fields of a row's mask: all of `op` and `z`, and every field the format does not use (R92). -/
theorem Format.ofCmd_mask (fmt : Format) :
    CmdFields.ofCmd fmt.mask =
      { op := BitVec.allOnes 8, z := BitVec.allOnes 7, k := if fmt.usesK then 0 else BitVec.allOnes 1,
        b := if fmt.usesB then 0 else BitVec.allOnes 16,
        a := BitVec.allOnes 32 <<< fmt.aBits } := by
  cases fmt <;> decide

/-- The fields of a row's pattern (R92). -/
theorem CmdFields.ofCmd_pattern (op : BitVec 8) :
    CmdFields.ofCmd (op.zeroExtend 64 <<< 56) = { op := op, z := 0, k := 0, b := 0, a := 0 } := by
  revert op
  decide

theorem and_allOnes_shift_eq_zero (a : BitVec 32) (n : Nat) :
    a &&& BitVec.allOnes 32 <<< n = 0 ↔ a >>> n = 0 := by
  constructor
  · intro h
    apply BitVec.eq_of_getLsbD_eq
    intro i hi
    have := congrArg (fun x => x.getLsbD (n + i)) h
    by_cases hb : n + i < 32
    · have hn : ¬n + i < n := by omega
      simp only [BitVec.getLsbD_and, BitVec.getLsbD_shiftLeft, BitVec.getLsbD_allOnes, hb, hn,
        Nat.add_sub_cancel_left, hi, decide_true, decide_false, Bool.not_false, Bool.and_true] at this
      simpa using this
    · simp [BitVec.getLsbD_of_ge a (n + i) (by omega)]
  · intro h
    apply BitVec.eq_of_getLsbD_eq
    intro i hi
    by_cases hn : i < n
    · simp [hn]
    · have := congrArg (fun x => x.getLsbD (i - n)) h
      have e : n + (i - n) = i := by omega
      simp only [BitVec.getLsbD_ushiftRight, e] at this
      simp [this]

/-- A row selects exactly the words with its opcode, a zero `z` and no stray bit (R92, R93). -/
theorem Row.selects_of_iff (m : String) (op : BitVec 8) (fmt : Format) (w : Cmd) :
    (Row.of m op fmt).selects w = true ↔
      (CmdFields.ofCmd w).op = op ∧ (CmdFields.ofCmd w).z = 0 ∧ fmt.stray (CmdFields.ofCmd w) = false := by
  simp only [Row.selects, Row.of, beq_iff_eq]
  rw [← CmdFields.ofCmd_inj, CmdFields.ofCmd_and, CmdFields.ofCmd_pattern, Format.ofCmd_mask]
  simp only [CmdFields.mk.injEq, BitVec.and_allOnes, Format.stray, and_allOnes_shift_eq_zero]
  cases fmt.usesK <;> cases fmt.usesB <;>
    simp only [Bool.false_eq_true, ↓reduceIte, BitVec.and_allOnes] <;> simp [and_assoc]

end Sys2Proof
end

