-- ==== Sys2Proof/Laws/PerInstr.lean ====
section
/-! SUPPORT. Family `TableRow`: the encoding of every instruction fits its own row of the opcode table. -/

namespace Sys2Proof.Laws.TableRow

/-- The encoding of an instruction fits its row: a command word is selected by the command row of the same
mnemonic, and a wire form has the flag bit of its row. -/
def Statement (i : Instr) : Prop :=
  match encode i with
  | .command w => ∃ r ∈ commandRows, r.mnemonic = i.mnemonic ∧ r.selects w = true
  | .frameStart _ => i.mnemonic = "WIRE.BYTE0"
  | .lengthField [x] => i.mnemonic = "WIRE.VARINT1" ∧ x.getLsbD 7 = false
  | .lengthField [x, _] => i.mnemonic = "WIRE.VARINT2" ∧ x.getLsbD 7 = true
  | .lengthField _ => False

/-- An instruction encoded with a row's opcode and no bit outside the row's format fits the row. -/
theorem command_statement {i : Instr} {m : String} {op : BitVec 8} {fmt : Format} {k : BitVec 1} {b : BitVec 16}
    {a : BitVec 32} (hr : Row.of m op fmt ∈ commandRows) (hm : i.mnemonic = m) (he : encode i = command op k b a)
    (hs : fmt.stray { op := op, z := 0, k := k, b := b, a := a } = false) : Statement i := by
  simp only [Statement, he, command]
  refine ⟨_, hr, hm.symm, (Row.selects_of_iff _ _ _ _).2 ?_⟩
  rw [CmdFields.ofCmd_toCmd]
  exact ⟨rfl, rfl, hs⟩

theorem vpredict (value : Half) : Statement (.vpredict value) :=
  command_statement (m := "VPREDICT") (fmt := .v) (by simp [commandRows]) rfl rfl
    (by simp [Format.stray, Format.usesK, Format.usesB, Format.aBits])

theorem vencode (value : Half) (base : Half) (cap : Half) : Statement (.vencode value base cap) :=
  command_statement (m := "VENCODE") (fmt := .vbc) (by simp [commandRows]) rfl rfl
    (by simp [Format.stray, Format.usesK, Format.usesB, Format.aBits])

theorem vdecode (base : Half) (avail : Half) : Statement (.vdecode base avail) :=
  command_statement (m := "VDECODE") (fmt := .bn) (by simp [commandRows]) rfl rfl
    (by simp [Format.stray, Format.usesK, Format.usesB, Format.aBits])

theorem crc32 (e : Engine) (base : Half) (len : Half) : Statement (.crc32 e base len) :=
  command_statement (m := "CRC32") (fmt := .kbn) (by simp [commandRows]) rfl rfl
    (by simp [Format.stray, Format.usesK, Format.usesB, Format.aBits])

theorem pclear (k : BankId) : Statement (.pclear k) :=
  command_statement (m := "PCLEAR") (fmt := .k) (by simp [commandRows]) rfl rfl
    (by simp [Format.stray, Format.usesK, Format.usesB, Format.aBits])

theorem settype (k : BankId) (t : Byte) : Statement (.settype k t) :=
  command_statement (m := "SETTYPE") (fmt := .k8) (by simp [commandRows]) rfl rfl
    (by simp [Format.stray, Format.usesK, Format.usesB, Format.aBits])

theorem settr (k : BankId) (tr : Byte) : Statement (.settr k tr) :=
  command_statement (m := "SETTR") (fmt := .k8) (by simp [commandRows]) rfl rfl
    (by simp [Format.stray, Format.usesK, Format.usesB, Format.aBits])

theorem setwin (k : BankId) (w : Byte) : Statement (.setwin k w) :=
  command_statement (m := "SETWIN") (fmt := .k8) (by simp [commandRows]) rfl rfl
    (by simp [Format.stray, Format.usesK, Format.usesB, Format.aBits])

theorem setlen (k : BankId) (len : Half) : Statement (.setlen k len) :=
  command_statement (m := "SETLEN") (fmt := .k16) (by simp [commandRows]) rfl rfl
    (by simp [Format.stray, Format.usesK, Format.usesB, Format.aBits])

theorem setseq (k : BankId) (sq : Byte) : Statement (.setseq k sq) :=
  command_statement (m := "SETSEQ") (fmt := .k8) (by simp [commandRows]) rfl rfl
    (by simp [Format.stray, Format.usesK, Format.usesB, Format.aBits])

theorem setts (k : BankId) (t : Word) : Statement (.setts k t) :=
  command_statement (m := "SETTS") (fmt := .k32) (by simp [commandRows]) rfl rfl
    (by simp [Format.stray, Format.usesK, Format.usesB, Format.aBits])

theorem setcrc1 (k : BankId) (c : Word) : Statement (.setcrc1 k c) :=
  command_statement (m := "SETCRC1") (fmt := .k32) (by simp [commandRows]) rfl rfl
    (by simp [Format.stray, Format.usesK, Format.usesB, Format.aBits])

theorem setcrc2 (k : BankId) (c : Word) : Statement (.setcrc2 k c) :=
  command_statement (m := "SETCRC2") (fmt := .k32) (by simp [commandRows]) rfl rfl
    (by simp [Format.stray, Format.usesK, Format.usesB, Format.aBits])

theorem setpay (k : BankId) (base : Half) (len : Half) : Statement (.setpay k base len) :=
  command_statement (m := "SETPAY") (fmt := .kbn) (by simp [commandRows]) rfl rfl
    (by simp [Format.stray, Format.usesK, Format.usesB, Format.aBits])

theorem gettype (k : BankId) : Statement (.gettype k) :=
  command_statement (m := "GETTYPE") (fmt := .k) (by simp [commandRows]) rfl rfl
    (by simp [Format.stray, Format.usesK, Format.usesB, Format.aBits])

theorem gettr (k : BankId) : Statement (.gettr k) :=
  command_statement (m := "GETTR") (fmt := .k) (by simp [commandRows]) rfl rfl
    (by simp [Format.stray, Format.usesK, Format.usesB, Format.aBits])

theorem getwin (k : BankId) : Statement (.getwin k) :=
  command_statement (m := "GETWIN") (fmt := .k) (by simp [commandRows]) rfl rfl
    (by simp [Format.stray, Format.usesK, Format.usesB, Format.aBits])

theorem getlen (k : BankId) : Statement (.getlen k) :=
  command_statement (m := "GETLEN") (fmt := .k) (by simp [commandRows]) rfl rfl
    (by simp [Format.stray, Format.usesK, Format.usesB, Format.aBits])

theorem getseq (k : BankId) : Statement (.getseq k) :=
  command_statement (m := "GETSEQ") (fmt := .k) (by simp [commandRows]) rfl rfl
    (by simp [Format.stray, Format.usesK, Format.usesB, Format.aBits])

theorem getts (k : BankId) : Statement (.getts k) :=
  command_statement (m := "GETTS") (fmt := .k) (by simp [commandRows]) rfl rfl
    (by simp [Format.stray, Format.usesK, Format.usesB, Format.aBits])

theorem getcrc1 (k : BankId) : Statement (.getcrc1 k) :=
  command_statement (m := "GETCRC1") (fmt := .k) (by simp [commandRows]) rfl rfl
    (by simp [Format.stray, Format.usesK, Format.usesB, Format.aBits])

theorem getcrc2 (k : BankId) : Statement (.getcrc2 k) :=
  command_statement (m := "GETCRC2") (fmt := .k) (by simp [commandRows]) rfl rfl
    (by simp [Format.stray, Format.usesK, Format.usesB, Format.aBits])

theorem getpay (k : BankId) (base : Half) : Statement (.getpay k base) :=
  command_statement (m := "GETPAY") (fmt := .kb) (by simp [commandRows]) rfl rfl
    (by simp [Format.stray, Format.usesK, Format.usesB, Format.aBits])

theorem penc (k : BankId) (base : Half) (cap : Half) : Statement (.penc k base cap) :=
  command_statement (m := "PENC") (fmt := .kbn) (by simp [commandRows]) rfl rfl
    (by simp [Format.stray, Format.usesK, Format.usesB, Format.aBits])

theorem pdec (k : BankId) (base : Half) (len : Half) : Statement (.pdec k base len) :=
  command_statement (m := "PDEC") (fmt := .kbn) (by simp [commandRows]) rfl rfl
    (by simp [Format.stray, Format.usesK, Format.usesB, Format.aBits])

theorem bmwr (addr : Half) (byte : Byte) : Statement (.bmwr addr byte) :=
  command_statement (m := "BMWR") (fmt := .b8) (by simp [commandRows]) rfl rfl
    (by simp [Format.stray, Format.usesK, Format.usesB, Format.aBits])

theorem bmrd (addr : Half) : Statement (.bmrd addr) :=
  command_statement (m := "BMRD") (fmt := .b) (by simp [commandRows]) rfl rfl
    (by simp [Format.stray, Format.usesK, Format.usesB, Format.aBits])

theorem wireVarint1 (v : BitVec 7) : Statement (.wireVarint1 v) := by
  refine ⟨rfl, ?_⟩
  revert v
  decide

theorem wireVarint2 (v : BitVec 15) : Statement (.wireVarint2 v) := by
  refine ⟨rfl, ?_⟩
  generalize v.extractLsb' 8 7 = u
  revert u
  decide

theorem wireByte0 (t : BitVec 2) (r : BitVec 1) (w : BitVec 5) : Statement (.wireByte0 t r w) := rfl

end Sys2Proof.Laws.TableRow
end

