-- ==== Sys2Proof/Tests/Slice0.lean ====
section
/-! SUPPORT. The model's own tests, each of one step on a small state, with expected values from spec/95_test_vectors.md
(S and T numbers), and after them a witness for the hypotheses of each statement that has some. -/

namespace Sys2Proof.Tests

open Sys2Proof Sys2Proof.Machine

/-! ### Small states -/

/-- The state an instruction leaves, or the state before when it leaves none. -/
def after (i : Instr) (s : State) : State :=
  match exec i s with
  | .next t => t
  | .fault _ => s
  | .refused _ => s

/-- The response an instruction leaves in a next state: status, `R0`, `R1`. -/
def answer (i : Instr) (s : State) : Option (Status × Word × Half) :=
  match exec i s with
  | .next t => some (t.rsp.st, t.rsp.r0, t.rsp.r1)
  | .fault _ => none
  | .refused _ => none

/-- The reset state with bytes in the buffer memory. -/
def ram (a : Nat) (bytes : List Byte) : State := State.reset.memWrite a bytes

/-- The bank of Program 1 as PENC meets it, with values in the two checksum fields. -/
def hello : Bank where
  type := 1
  tr := 0
  win := 5
  len := 5
  seq := 0x2A
  ts := 0x01020304
  crc1 := 0x11223344
  crc2 := 0x55667788
  pv := true
  plen := 5
  pl := [(0, 0x68), (1, 0x65), (2, 0x6C), (3, 0x6C), (4, 0x6F)]

/-- The frame of T20. -/
def helloFrame : List Byte :=
  [0x45, 0x05, 0x2A, 0x01, 0x02, 0x03, 0x04, 0xC7, 0x9B, 0x07, 0x67, 0x68, 0x65, 0x6C, 0x6C, 0x6F, 0x36, 0x10, 0xA6,
    0x86]

/-- The reset state with this bank as `P[0]`. -/
def banked (b : Bank) : State := State.reset.setBank .p0 b

/-! ### Well-formedness: each check refuses an ill-formed term -/

theorem test_wellFormed_byte0_needs_a_type : (Instr.wireByte0 0 0 16).wellFormed = false := by decide
theorem test_wellFormed_byte0_truncated_only_data : (Instr.wireByte0 2 1 0).wellFormed = false := by decide
theorem test_wellFormed_varint2_canonical : (Instr.wireVarint2 127).wellFormed = false := by decide
theorem test_wellFormed_accepts :
    (Instr.wireByte0 1 1 5).wellFormed = true ∧ (Instr.wireVarint2 128).wellFormed = true ∧
      (Instr.settype .p0 0).wellFormed = true := by decide

/-! ### Decoding: a word for every constructor, written out from R90 to R93 -/

theorem test_decode_varint_and_crc :
    decode (.command 0x010000000000007F) = .ok (.vpredict 127) ∧
    decode (.command 0x020007FF00020005) = .ok (.vencode 5 0x07FF 2) ∧
    decode (.command 0x0300001000000002) = .ok (.vdecode 0x0010 2) ∧
    decode (.command 0x0801010000000009) = .ok (.crc32 .e1 0x0100 9) := by decide

theorem test_decode_setters :
    decode (.command 0x1001000000000000) = .ok (.pclear .p1) ∧
    decode (.command 0x1100000000000005) = .ok (.settype .p0 5) ∧
    decode (.command 0x1200000000000001) = .ok (.settr .p0 1) ∧
    decode (.command 0x1300000000000020) = .ok (.setwin .p0 32) ∧
    decode (.command 0x1400000000000201) = .ok (.setlen .p0 513) ∧
    decode (.command 0x150100000000002A) = .ok (.setseq .p1 0x2A) ∧
    decode (.command 0x1600000001020304) = .ok (.setts .p0 0x01020304) ∧
    decode (.command 0x1701000089ABCDEF) = .ok (.setcrc1 .p1 0x89ABCDEF) ∧
    decode (.command 0x18000000FFFFFFFE) = .ok (.setcrc2 .p0 0xFFFFFFFE) ∧
    decode (.command 0x1901010000000005) = .ok (.setpay .p1 0x0100 5) := by decide

theorem test_decode_getters :
    decode (.command 0x2101000000000000) = .ok (.gettype .p1) ∧
    decode (.command 0x2201000000000000) = .ok (.gettr .p1) ∧
    decode (.command 0x2301000000000000) = .ok (.getwin .p1) ∧
    decode (.command 0x2400000000000000) = .ok (.getlen .p0) ∧
    decode (.command 0x2501000000000000) = .ok (.getseq .p1) ∧
    decode (.command 0x2601000000000000) = .ok (.getts .p1) ∧
    decode (.command 0x2701000000000000) = .ok (.getcrc1 .p1) ∧
    decode (.command 0x2801000000000000) = .ok (.getcrc2 .p1) ∧
    decode (.command 0x290007FB00000000) = .ok (.getpay .p0 0x07FB) := by decide

theorem test_decode_codec_and_buffer :
    decode (.command 0x300007F800000010) = .ok (.penc .p0 0x07F8 16) ∧
    decode (.command 0x310107F000000014) = .ok (.pdec .p1 0x07F0 20) ∧
    decode (.command 0x400007FF00000012) = .ok (.bmwr 0x07FF 0x12) ∧
    decode (.command 0x410007FF00000000) = .ok (.bmrd 0x07FF) := by decide

/-- The wire rows by their bits (R97, R101, R102; S14): `0vvvvvvv`, `1vvvvvvv vvvvvvvv`, `ttrwwwww`. -/
theorem test_decode_wire :
    decode (.lengthField [0x7F]) = .ok (.wireVarint1 127) ∧
    decode (.lengthField [0x81, 0x90]) = .ok (.wireVarint2 400) ∧
    decode (.lengthField [0x80, 0x05]) = .ok (.wireVarint2 5) ∧
    decode (.frameStart 0x65) = .ok (.wireByte0 1 1 5) ∧
    decode (.frameStart 0x9F) = .ok (.wireByte0 2 0 31) ∧
    decode (.lengthField []) = .error .truncatedVarint ∧
    decode (.lengthField [0x81]) = .error .truncatedVarint := by decide

/-- T71 to T74: words that are no operation, each refused for its own reason. -/
theorem test_decode_refuses :
    decode (.command 0x3200000000000000) = .error (.reservedOpcode 0x32) ∧
    decode (.command 0x1102000000000001) = .error (.nonzeroZ 1) ∧
    decode (.command 0x1180000000000001) = .error (.nonzeroZ 0x40) ∧
    decode (.command 0x2400000000000001) = .error (.strayOperand .k) ∧
    decode (.command 0x1300000000000120) = .error (.strayOperand .k8) ∧
    decode (.command 0x4101000000000000) = .error (.strayOperand .b) ∧
    decode (.command 0x0101000000000005) = .error (.strayOperand .v) ∧
    decode (.command 0x1000000100000000) = .error (.strayOperand .k) ∧
    decode (.command 0x0300001000010002) = .error (.strayOperand .bn) := by decide

/-- The host's question, a 64-bit row and the three wire rows. -/
theorem test_decodeTableWord :
    decodeTableWord 64 0x1900010000000005 = some (.setpay .p0 0x0100 5) ∧
    decodeTableWord 64 0x4002080000000000 = none ∧
    decodeTableWord 8 0x05 = some (.wireVarint1 5) ∧
    decodeTableWord 16 0x8190 = some (.wireVarint2 400) ∧
    decodeTableWord 8 0x9F = some (.wireByte0 2 0 31) := by decide

/-- R95: two of the worked words, written by the encoder. -/
theorem test_encode_words :
    encode (.vencode 400 0x0010 2) = .command 0x0200001000020190 ∧
    encode (.pdec .p1 0x0200 20) = .command 0x3101020000000014 ∧
    encode (.wireVarint2 400) = .lengthField [0x81, 0x90] ∧
    encode (.wireByte0 1 0 16) = .frameStart 0x50 := by decide

/-! ### varint_codec -/

/-- S2. -/
theorem test_vpredict :
    answer (.vpredict 127) State.reset = some (.ok, 0, 1) ∧ answer (.vpredict 128) State.reset = some (.ok, 0, 2) ∧
    answer (.vpredict 32767) State.reset = some (.ok, 0, 2) ∧
    answer (.vpredict 32768) State.reset = some (.invalidLength, 0, 0) := by decide

/-- T2. -/
theorem test_vencode_writes :
    (after (.vencode 400 0x0010 2) State.reset).bm = [(0x10, 0x81), (0x11, 0x90)] ∧
    (after (.vencode 127 0x0010 2) State.reset).bm = [(0x10, 0x7F)] ∧
    (after (.vencode 32767 0x0010 2) State.reset).bm = [(0x10, 0xFF), (0x11, 0xFF)] := by decide

/-- T3: capacity, value before capacity, address before value. -/
theorem test_vencode_fails :
    answer (.vencode 128 0x0010 1) State.reset = some (.bufferTooSmall, 0, 0) ∧
    answer (.vencode 32768 0x0020 0) State.reset = some (.invalidLength, 0, 0) ∧
    answer (.vencode 32768 0x07FF 2) State.reset = some (.addressError, 0, 0) ∧
    (after (.vencode 128 0x0010 1) State.reset).bm = [] := by decide

/-- T4. -/
theorem test_vdecode_reads :
    answer (.vdecode 0x0010 2) (ram 0x10 [0x81, 0x90]) = some (.ok, 400, 2) ∧
    answer (.vdecode 0x0010 2) (ram 0x10 [0x80, 0x05]) = some (.ok, 5, 2) ∧
    answer (.vdecode 0x0010 2) (ram 0x10 [0x05, 0xFF]) = some (.ok, 5, 1) := by decide

/-- T4. -/
theorem test_vdecode_fails :
    answer (.vdecode 0x0010 1) (ram 0x10 [0x81, 0x90]) = some (.headerTooShort, 0, 0) ∧
    answer (.vdecode 0x0800 0) State.reset = some (.headerTooShort, 0, 0) ∧
    answer (.vdecode 0x07FF 2) State.reset = some (.addressError, 0, 0) := by decide

/-! ### crc32_gen -/

/-- T12, on one byte. -/
theorem test_crc32_one_byte : answer (.crc32 .e1 0x0100 1) (ram 0x100 [0x68]) = some (.ok, 0x916B06E7, 1) := by
  decide +kernel

/-- T11. -/
theorem test_crc32_range :
    answer (.crc32 .e0 0x0800 0) State.reset = some (.ok, 0, 0) ∧
    answer (.crc32 .e0 0x0801 0) State.reset = some (.addressError, 0, 0) := by decide

/-! ### Packet field operations -/

/-- R170: the bytes of `PL` stay. -/
theorem test_pclear :
    (after (.pclear .p0) (banked hello)).p0 = { Bank.reset with pl := hello.pl } := by decide

/-- T50 and, in the second part, T51: a bank with `TR = 1` may become NACK. -/
theorem test_settype :
    answer (.settype .p0 5) (banked hello) = some (.invalidType, 0, 0) ∧
    (after (.settype .p0 3) (banked { hello with tr := 1 })).p0 = { hello with type := 3, tr := 1 } := by decide

/-- T51. -/
theorem test_settr :
    answer (.settr .p0 1) State.reset = some (.invalidTruncationFlag, 0, 0) ∧
    (after (.settr .p0 1) (banked hello)).p0 = { hello with tr := 1 } ∧
    answer (.settr .p0 2) (banked hello) = some (.invalidTruncationFlag, 0, 0) := by decide

/-- T52. -/
theorem test_setwin :
    (after (.setwin .p0 31) (banked hello)).p0 = { hello with win := 31 } ∧
    answer (.setwin .p0 32) (banked hello) = some (.invalidWindow, 0, 0) := by decide

/-- T53: `PV` and `PLEN` stay. -/
theorem test_setlen :
    (after (.setlen .p0 512) (banked hello)).p0 = { hello with len := 512 } ∧
    answer (.setlen .p0 513) (banked hello) = some (.invalidLength, 0, 0) := by decide

/-- T54. -/
theorem test_setseq : (after (.setseq .p0 255) (banked hello)).p0 = { hello with seq := 255 } := by decide
/-- T54. -/
theorem test_setts : (after (.setts .p0 0xFFFFFFFF) (banked hello)).p0 = { hello with ts := 0xFFFFFFFF } := by decide
/-- T54. -/
theorem test_setcrc1 : (after (.setcrc1 .p0 0xFFFFFFFF) (banked hello)).p0 = { hello with crc1 := 0xFFFFFFFF } := by
  decide
/-- T54. -/
theorem test_setcrc2 : (after (.setcrc2 .p0 0) (banked hello)).p0 = { hello with crc2 := 0 } := by decide

/-- T57: a shorter payload replaces `LEN` and `PLEN`. -/
theorem test_setpay_replaces :
    (after (.setpay .p0 0x0100 2) ((ram 0x100 [0xAA, 0xBB]).setBank .p0 hello)).p0 =
      { hello with len := 2, plen := 2, pl := [(0, 0xAA), (1, 0xBB), (2, 0x6C), (3, 0x6C), (4, 0x6F)] } := by decide

/-- T55: the size, and the address before the size. -/
theorem test_setpay_fails :
    answer (.setpay .p0 0x0000 513) State.reset = some (.payloadTooLarge, 0, 0) ∧
    answer (.setpay .p0 0x0700 600) State.reset = some (.addressError, 0, 0) := by decide

/-- The getters answer the fields of Program 1's bank. -/
theorem test_gettype : answer (.gettype .p0) (banked { hello with type := 3 }) = some (.ok, 3, 0) := by decide
theorem test_gettr : answer (.gettr .p0) (banked { hello with tr := 1 }) = some (.ok, 1, 0) := by decide
theorem test_getwin : answer (.getwin .p0) (banked hello) = some (.ok, 5, 0) := by decide
theorem test_getlen : answer (.getlen .p0) (banked { hello with len := 3 }) = some (.ok, 3, 0) := by decide
theorem test_getseq : answer (.getseq .p0) (banked hello) = some (.ok, 0x2A, 0) := by decide
theorem test_getts : answer (.getts .p0) (banked hello) = some (.ok, 0x01020304, 0) := by decide
theorem test_getcrc1 : answer (.getcrc1 .p0) (banked hello) = some (.ok, 0x11223344, 0) := by decide
theorem test_getcrc2 : answer (.getcrc2 .p0) (banked hello) = some (.ok, 0x55667788, 0) := by decide

/-- T61: `GETPAY` goes by the stored payload, not by `LEN`. -/
theorem test_getpay_copies :
    answer (.getpay .p0 0x07FB) (banked { hello with len := 3 }) = some (.ok, 1, 5) ∧
    (after (.getpay .p0 0x07FB) (banked { hello with len := 3 })).bm =
      [(0x7FB, 0x68), (0x7FC, 0x65), (0x7FD, 0x6C), (0x7FE, 0x6C), (0x7FF, 0x6F)] := by decide

/-- T59. -/
theorem test_getpay_range :
    answer (.getpay .p0 0x07FC) (banked hello) = some (.addressError, 0, 0) ∧
    answer (.getpay .p0 0x0800) State.reset = some (.ok, 0, 0) ∧
    answer (.getpay .p0 0x0801) State.reset = some (.addressError, 0, 0) := by decide

/-! ### packet_encoder and packet_decoder -/

/-- Program 1: the frame of T20, and 20 bytes. -/
theorem test_penc_frame :
    answer (.penc .p0 0x0200 20) (banked hello) = some (.ok, 0, 20) ∧
    (after (.penc .p0 0x0200 20) (banked hello)).bm.map Prod.snd = helloFrame := by decide +kernel

/-- T17, T18 (a) and (e), and the range. -/
theorem test_penc_fails :
    answer (.penc .p0 0x0200 19) (banked hello) = some (.bufferTooSmall, 0, 0) ∧
    answer (.penc .p0 0x0200 64) (banked { hello with len := 3 }) = some (.invalidLength, 0, 0) ∧
    answer (.penc .p0 0x0200 0) (banked { hello with len := 3 }) = some (.invalidLength, 0, 0) ∧
    answer (.penc .p0 0x07F8 16) (banked hello) = some (.addressError, 0, 0) := by decide

/-- T20: every field of the bank. -/
theorem test_pdec_data :
    answer (.pdec .p1 0x0200 20) (ram 0x200 helloFrame) = some (.ok, 0, 20) ∧
    (after (.pdec .p1 0x0200 20) (ram 0x200 helloFrame)).p1 = { hello with crc1 := 0xC79B0767, crc2 := 0x3610A686 } := by
  decide +kernel

/-- T42, cut to 11 bytes as in Program 2: the truncated frame decodes without its payload. -/
theorem test_pdec_truncated :
    answer (.pdec .p0 0x0200 11) ((ram 0x200 (0x65 :: helloFrame.tail)).setBank .p0 hello) = some (.ok, 0, 11) ∧
    (after (.pdec .p0 0x0200 11) ((ram 0x200 (0x65 :: helloFrame.tail)).setBank .p0 hello)).p0 =
      { hello with tr := 1, crc1 := 0xC79B0767, crc2 := 0, pv := false, plen := 0 } := by decide +kernel

/-! ### Buffer access, illegal words and steps -/

/-- T70. -/
theorem test_bmwr :
    (after (.bmwr 0x07FF 0x12) State.reset).bm = [(0x7FF, 0x12)] ∧
    answer (.bmwr 0x0800 0) State.reset = some (.addressError, 0, 0) := by decide

/-- T70. -/
theorem test_bmrd :
    answer (.bmrd 0x07FF) (ram 0x7FF [0x12]) = some (.ok, 0x12, 1) ∧
    answer (.bmrd 0xFFFF) State.reset = some (.addressError, 0, 0) := by decide

/-- The bits of a wire row have opcode 0x00 as a command word (R113, R116). -/
theorem test_wire_rows :
    answer (.wireVarint1 5) State.reset = some (.illegalCommand, 0, 0) ∧
    answer (.wireVarint2 400) State.reset = some (.illegalCommand, 0, 0) ∧
    answer (.wireByte0 1 0 5) State.reset = some (.illegalCommand, 0, 0) := by decide

/-- The response of one step. -/
def stepped (s : State) : Option (Status × Word × Half) :=
  match step s with
  | .next t => some (t.rsp.st, t.rsp.r0, t.rsp.r1)
  | .fault _ => none
  | .refused _ => none

/-- S2 and T74 as steps: a word runs, and `IllegalCommand` comes before an operand failure. -/
theorem test_step_runs_a_word :
    stepped (State.reset.withFetchWord 64 0x0100000000000080) = some (.ok, 0, 2) ∧
    stepped (State.reset.withFetchWord 64 0x1300000000000120) = some (.illegalCommand, 0, 0) := by decide

/-- R45 and R299: reset clears a bank and the response, and an idle step keeps them. -/
theorem test_step_reset_and_idle :
    step { banked hello with inputs := [.rst] } = .next { State.reset with resets := 1 } ∧
    step { banked hello with inputs := [.idle], rspValid := true } = .next (banked hello) := ⟨rfl, rfl⟩

/-! ### Every hypothesis can be met: one witness for each statement that has hypotheses, clause by clause -/

theorem witness_EncodeInvertsDecodeOfCommands :
    decode (.command 0x1100000000000001) = .ok (.settype .p0 1) := by decide

theorem witness_CommandSelectedByMaskAndMatch :
    (Row.of "BMRD" 0x41 .b ∈ commandRows ∧ (Row.of "BMRD" 0x41 .b).selects 0x410007FF00000000 = true) ∧
    (∀ r ∈ commandRows, r.selects 0x4101000000000000 = false) := by decide

/-- Both ends of every reserved range (R113), and the lowest and highest `z` bit (R114). -/
theorem witness_ReservedWordsAreNoOperation :
    (0x04 = (0x0400000000000000#64).toNat / 2 ^ 56 ∧ 0x07 = (0x0700000000000000#64).toNat / 2 ^ 56 ∧
      0x09 = (0x0900000000000000#64).toNat / 2 ^ 56 ∧ 0x0F = (0x0F00000000000000#64).toNat / 2 ^ 56 ∧
      0x1A = (0x1A00000000000000#64).toNat / 2 ^ 56 ∧ 0x20 = (0x2000000000000000#64).toNat / 2 ^ 56 ∧
      0x2A = (0x2A00000000000000#64).toNat / 2 ^ 56 ∧ 0x2F = (0x2F00000000000000#64).toNat / 2 ^ 56 ∧
      0x32 = (0x3200000000000000#64).toNat / 2 ^ 56 ∧ 0x3F = (0x3F00000000000000#64).toNat / 2 ^ 56 ∧
      0x42 = (0x4200000000000000#64).toNat / 2 ^ 56 ∧ 0xFF = (0xFFFFFFFFFFFFFFFF#64).toNat / 2 ^ 56) ∧
    (0x1102000000000001#64).toNat / 2 ^ 49 % 2 ^ 7 ≠ 0 ∧ (0x1180000000000001#64).toNat / 2 ^ 49 % 2 ^ 7 ≠ 0 := by decide

theorem witness_VarintRowsAreTheCodec :
    128 ≤ (128#15).toNat ∧ vdec [0x80, 0x80] = some (128, 2) ∧ vdec [0x7F] = some (127, 1) := by decide

/-- The reset state with inputs. -/
def driven (inputs : List Input) : State := { State.reset with inputs := inputs }

theorem witness_StepRunsTheDecodedInstruction :
    (driven [.command 0x1100000000000001, .rst]).inputs = .command 0x1100000000000001 :: [.rst] ∧
      decode (.command 0x1100000000000001) = .ok (.settype .p0 1) := by decide

theorem witness_NoOperationGivesIllegalCommand :
    (driven [.command 0]).inputs = .command 0 :: [] ∧ ∀ i, decode (.command 0) ≠ .ok i :=
  ⟨rfl, fun _ h => nomatch h⟩

theorem witness_IdleStepRetainsState :
    (driven []).inputs = [] ∧ ∃ rest, (driven [.idle, .rst]).inputs = .idle :: rest := ⟨rfl, [.rst], rfl⟩

theorem witness_RstTakesTheResetState : (driven [.rst, .command 0]).inputs = .rst :: [.command 0] := rfl

theorem witness_PortsShowTheResponse :
    (driven [.rst]).inputs = .rst :: [] ∧ (driven []).inputs.head? ≠ some .rst ∧
      exec (.gettype .p0) (driven []) = .next (after (.gettype .p0) (driven [])) := ⟨rfl, by decide, rfl⟩

/-- A legal state that is not the reset state, about to write a byte. -/
theorem witness_StepKeepsLegal :
    ({ (ram 0x200 helloFrame).setBank .p0 hello with inputs := [.command 0x400007FF00000012] }).Legal ∧
      step { (ram 0x200 helloFrame).setBank .p0 hello with inputs := [.command 0x400007FF00000012] } =
        .next (after (.bmwr 0x07FF 0x12) ((ram 0x200 helloFrame).setBank .p0 hello)) := ⟨by decide, rfl⟩

theorem witness_FailureChangesOnlyTheResponse :
    exec (.setwin .p0 32) (banked hello) = .next (after (.setwin .p0 32) (banked hello)) ∧
      (after (.setwin .p0 32) (banked hello)).rsp.st ≠ .ok := ⟨rfl, by decide⟩

theorem witness_StatusTableHolds :
    exec (.vdecode 0 0) State.reset = .next (after (.vdecode 0 0) State.reset) := rfl

/-- An address outside the range on either side. -/
theorem witness_OnlyTheDeclaredRangeIsWritten :
    exec (.bmwr 1 2) State.reset = .next (after (.bmwr 1 2) State.reset) ∧
      (0 < (writeRange State.reset (.bmwr 1 2)).1 ∨ (writeRange State.reset (.bmwr 1 2)).1 + 1 ≤ 0) ∧
      (writeRange State.reset (.bmwr 1 2)).1 + (writeRange State.reset (.bmwr 1 2)).2 ≤ 2 := ⟨rfl, by decide, by decide⟩

theorem witness_OnlyTheNamedBankIsWritten :
    exec (.pclear .p0) (banked hello) = .next (after (.pclear .p0) (banked hello)) ∧
      writesBank (.pclear .p0) .p1 = false := ⟨rfl, rfl⟩

/-- Two states whose memories differ outside the two bytes that are read. -/
theorem witness_OnlyTheDeclaredRangeIsRead :
    (∀ k, ((ram 0x10 [0x81, 0x90]).memWrite 0x12 [1]).bank k = (ram 0x10 [0x81, 0x90]).bank k) ∧
      SameBuild (ram 0x10 [0x81, 0x90]) ((ram 0x10 [0x81, 0x90]).memWrite 0x12 [1]) ∧
      (∀ j, j < (readRange (.vdecode 0x10 2)).2 →
        ((ram 0x10 [0x81, 0x90]).memWrite 0x12 [1]).bmByte ((readRange (.vdecode 0x10 2)).1 + j) =
          (ram 0x10 [0x81, 0x90]).bmByte ((readRange (.vdecode 0x10 2)).1 + j)) ∧
      exec (.vdecode 0x10 2) (ram 0x10 [0x81, 0x90]) = .next (after (.vdecode 0x10 2) (ram 0x10 [0x81, 0x90])) ∧
      exec (.vdecode 0x10 2) ((ram 0x10 [0x81, 0x90]).memWrite 0x12 [1]) =
        .next (after (.vdecode 0x10 2) ((ram 0x10 [0x81, 0x90]).memWrite 0x12 [1])) :=
  ⟨fun k => by cases k <;> rfl, ⟨rfl, rfl, rfl⟩, by decide, rfl, rfl⟩

/-- Two banks that differ in the payload byte at `PLEN` alone, about to copy the payload out. -/
theorem witness_UnreadablePayloadBytesDoNotMatter :
    SameReadable (banked { hello with plen := 4 }) (banked { hello with plen := 4, pl := hello.pl.set 4 0 }) ∧
      exec (.getpay .p0 0) (banked { hello with plen := 4 }) =
        .next (after (.getpay .p0 0) (banked { hello with plen := 4 })) := by
  refine ⟨⟨fun k => ?_, rfl, rfl, ⟨rfl, rfl, rfl⟩, rfl⟩, rfl⟩
  cases k
  · exact ⟨rfl, by decide⟩
  · exact ⟨rfl, fun i h => absurd h (Nat.not_lt_zero i)⟩

theorem witness_TypeIsUnsetOnlyByClearOrReset :
    step { banked hello with inputs := [.command 0x1000000000000000] } =
        .next (after (.pclear .p0) (banked hello)) ∧
      ((banked hello).bank .p0).type ≠ 0 ∧ ((after (.pclear .p0) (banked hello)).bank .p0).type = 0 :=
  ⟨rfl, by decide, by decide⟩

theorem witness_ParametersNeverChange : step (driven [.rst]) = .next { State.reset with resets := 1 } := rfl

theorem witness_VpredictClassifies :
    (127 : Half).toNat ≤ 127 ∧ (128 ≤ (128 : Half).toNat ∧ (128 : Half).toNat ≤ 32767) ∧
      (128 ≤ (32767 : Half).toNat ∧ (32767 : Half).toNat ≤ 32767) ∧ 32768 ≤ (32768 : Half).toNat := by decide

/-- The buffer memory of the default build has 2048 bytes. -/
theorem witness_VencodeWritesTheVarint :
    ((0x7FF : Half).toNat + (1 : Half).toNat ≤ State.reset.params.bmSize ∧ (127 : Half).toNat ≤ 127 ∧
      1 ≤ (1 : Half).toNat) ∧
    ((0x7FE : Half).toNat + (2 : Half).toNat ≤ State.reset.params.bmSize ∧ 128 ≤ (128 : Half).toNat ∧
      (32767 : Half).toNat ≤ 32767 ∧ 128 ≤ (32767 : Half).toNat ∧ 2 ≤ (2 : Half).toNat) ∧
    State.reset.params.bmSize < (0x7FF : Half).toNat + (2 : Half).toNat ∧
    (0x800 : Half).toNat + (0 : Half).toNat ≤ State.reset.params.bmSize ∧ 32768 ≤ (32768 : Half).toNat ∧
    (0 : Half).toNat < lengthWidth (127 : Half).toNat ∧ (1 : Half).toNat < lengthWidth (128 : Half).toNat := by decide

theorem witness_VdecodeReadsTheVarint :
    ((0x7FF : Half).toNat + (1 : Half).toNat ≤ State.reset.params.bmSize ∧ 1 ≤ (1 : Half).toNat ∧
      ((ram 0x7FF [0x7F]).bmByte (0x7FF : Half).toNat).toNat < 128) ∧
    ((0x7FE : Half).toNat + (2 : Half).toNat ≤ State.reset.params.bmSize ∧ 2 ≤ (2 : Half).toNat ∧
      128 ≤ ((ram 0x7FE [0x80, 0]).bmByte (0x7FE : Half).toNat).toNat) ∧
    State.reset.params.bmSize < (0x7FF : Half).toNat + (2 : Half).toNat ∧
    ((0x800 : Half).toNat + (0 : Half).toNat ≤ State.reset.params.bmSize ∧ (0 : Half).toNat = 0) ∧
    ((0x7FF : Half).toNat + (1 : Half).toNat ≤ State.reset.params.bmSize ∧ (1 : Half).toNat = 1 ∧
      128 ≤ ((ram 0x7FF [0x80]).bmByte (0x7FF : Half).toNat).toNat) := by decide

theorem witness_VarintLaws :
    venc (400 : BitVec 15) = [0x81, 0x90] ∧ (0x7F : Byte).toNat ≤ 127 ∧ vdec [0x80, 0x7F] = some (127, 2) ∧
      venc (128 : BitVec 15) = 0x80 :: [0x80] := by decide

theorem witness_VencodeThenVdecode :
    exec (.vencode 400 0x10 2) State.reset = .next (after (.vencode 400 0x10 2) State.reset) ∧
      (after (.vencode 400 0x10 2) State.reset).rsp.st = .ok ∧
      (after (.vencode 400 0x10 2) State.reset).rsp.r1.toNat ≤ (2 : Half).toNat ∧
      (0x10 : Half).toNat + (2 : Half).toNat ≤ State.reset.params.bmSize := ⟨rfl, by decide, by decide, by decide⟩

theorem witness_Crc32CoversTheRange :
    (0x7FF : Half).toNat + (1 : Half).toNat ≤ State.reset.params.bmSize ∧
      State.reset.params.bmSize < (0x801 : Half).toNat + (0 : Half).toNat := by decide

theorem witness_CrcDetectsOneBit : (0 : Nat) < 8 ∧ (7 : Nat) < 8 := by decide

theorem witness_SettypeChecksTheType :
    ((1 : Byte) = 1 ∨ (1 : Byte) = 2 ∨ (1 : Byte) = 3) ∧ ((3 : Byte) = 1 ∨ (3 : Byte) = 2 ∨ (3 : Byte) = 3) ∧
      ((0 : Byte) = 0 ∨ 4 ≤ (0 : Byte).toNat) ∧ ((4 : Byte) = 0 ∨ 4 ≤ (4 : Byte).toNat) := by decide

theorem witness_SettrChecksValueAndType :
    ((0 : Byte) = 0 ∨ ((0 : Byte) = 1 ∧ (State.reset.bank .p0).type = 1)) ∧
      ((1 : Byte) = 0 ∨ ((1 : Byte) = 1 ∧ ((banked hello).bank .p0).type = 1)) ∧
      (2 ≤ (2 : Byte).toNat ∨ ((2 : Byte) = 1 ∧ ((banked hello).bank .p0).type ≠ 1)) ∧
      (2 ≤ (1 : Byte).toNat ∨ ((1 : Byte) = 1 ∧ (State.reset.bank .p0).type ≠ 1)) := by decide

theorem witness_SetwinChecksTheWindow : (31 : Byte).toNat ≤ 31 ∧ 32 ≤ (32 : Byte).toNat := by decide

theorem witness_SetlenChecksTheCap : (512 : Half).toNat ≤ 512 ∧ 513 ≤ (513 : Half).toNat := by decide

theorem witness_SetpayCopiesThePayloadIn :
    ((0x600 : Half).toNat + (512 : Half).toNat ≤ State.reset.params.bmSize ∧ (512 : Half).toNat ≤ 512) ∧
      State.reset.params.bmSize < (0x700 : Half).toNat + (600 : Half).toNat ∧
      ((0 : Half).toNat + (513 : Half).toNat ≤ State.reset.params.bmSize ∧ 513 ≤ (513 : Half).toNat) := by decide

theorem witness_GetpayCopiesThePayloadOut :
    (((banked hello).bank .p0).pv = true ∧
      (0x7FB : Half).toNat + ((banked hello).bank .p0).plen.toNat ≤ (banked hello).params.bmSize) ∧
    ((State.reset.bank .p0).pv = false ∧ (0x800 : Half).toNat ≤ State.reset.params.bmSize) ∧
    ((banked hello).params.bmSize < (0x7FC : Half).toNat +
      (if ((banked hello).bank .p0).pv then ((banked hello).bank .p0).plen.toNat else 0)) ∧
    (State.reset.params.bmSize < (0x801 : Half).toNat +
      (if (State.reset.bank .p0).pv then (State.reset.bank .p0).plen.toNat else 0)) := by decide

theorem witness_PayloadIsACopy :
    exec (.setpay .p0 0x100 1) (ram 0x100 [0xAA]) = .next (after (.setpay .p0 0x100 1) (ram 0x100 [0xAA])) ∧
      (after (.setpay .p0 0x100 1) (ram 0x100 [0xAA])).rsp.st = .ok ∧
      exec (.bmwr 0x100 0xBB) (after (.setpay .p0 0x100 1) (ram 0x100 [0xAA])) =
        .next (after (.bmwr 0x100 0xBB) (after (.setpay .p0 0x100 1) (ram 0x100 [0xAA]))) ∧
      (0x300 : Half).toNat + (1 : Half).toNat ≤ (ram 0x100 [0xAA]).params.bmSize := ⟨rfl, by decide, rfl, by decide⟩

theorem witness_PencWritesTheFrame :
    ((0x7EC : Half).toNat + (20 : Half).toNat ≤ (banked hello).params.bmSize ∧
      ((banked hello).bank .p0).len.toNat =
        (if ((banked hello).bank .p0).pv then ((banked hello).bank .p0).plen.toNat else 0) ∧
      headerSize ((banked hello).bank .p0).len.toNat + 8 + ((banked hello).bank .p0).len.toNat ≤ (20 : Half).toNat) ∧
    (banked hello).params.bmSize < (0x7ED : Half).toNat + (20 : Half).toNat ∧
    ((banked { hello with len := 4 }).bank .p0).len.toNat ≠
      (if ((banked { hello with len := 4 }).bank .p0).pv then ((banked { hello with len := 4 }).bank .p0).plen.toNat
        else 0) ∧
    (19 : Half).toNat <
      headerSize ((banked hello).bank .p0).len.toNat + 8 + ((banked hello).bank .p0).len.toNat := by decide

theorem witness_PencIgnoresTheChecksumFields :
    exec (.penc .p0 0x200 20) (banked hello) = .next (after (.penc .p0 0x200 20) (banked hello)) := rfl

/-- The bank of S13, its 400 bytes written as a run. -/
def scenario : Bank where
  type := 1
  tr := 0
  win := 16
  len := 400
  seq := 3
  ts := 4
  crc1 := 0
  crc2 := 0
  pv := true
  plen := 400
  pl := (List.range 400).map (fun i => (i, 0x31#8))

theorem scenario_get? (n i : Nat) (h : i < n) :
    Memory.get? ((List.range n).map (fun i => (i, 0x31#8))) i = some 0x31#8 := by
  have key : ∀ l : List Nat, i ∈ l → Memory.get? (l.map (fun i => (i, 0x31#8))) i = some 0x31#8 := by
    intro l
    induction l with
    | nil => intro h; cases h
    | cons x rest ih =>
      intro h
      by_cases e : x = i
      · simp [Memory.get?, e]
      · simpa [Memory.get?, e] using ih ((List.mem_cons.1 h).resolve_left (Ne.symm e))
  exact key _ (List.mem_range.2 h)

theorem witness_ConcreteScenario :
    (((banked scenario).bank .p0).type = 1 ∧ ((banked scenario).bank .p0).tr = 0 ∧
      ((banked scenario).bank .p0).win = 16 ∧ ((banked scenario).bank .p0).len = 400 ∧
      ((banked scenario).bank .p0).seq = 3 ∧ ((banked scenario).bank .p0).ts = 4 ∧
      ((banked scenario).bank .p0).pv = true ∧ ((banked scenario).bank .p0).plen = 400) ∧
    (∀ i, i < 400 → (banked scenario).plByte .p0 i = 0x31) ∧
    (banked scenario).params.crc32 = .isoHdlc ∧
    (0x660 : Half).toNat + (416 : Half).toNat ≤ (banked scenario).params.bmSize ∧ 416 ≤ (416 : Half).toNat := by
  refine ⟨⟨rfl, rfl, rfl, rfl, rfl, rfl, rfl, rfl⟩, fun i h => ?_, rfl, by decide, by decide⟩
  show (match Memory.get? ((List.range 400).map (fun i => (i, 0x31#8))) i with
    | some v => v
    | none => _) = 0x31#8
  rw [scenario_get? 400 i h]

/-! Inputs of the decoder, from T20 to T46: prefixes of `helloFrame` and its relatives at 0x200. -/

/-- What the decoder reads of these bytes at 0x200. -/
abbrev input (bytes : List Byte) : Nat → Byte := fromBase (ram 0x200 bytes) 0x200

/-- T37, then the boundaries of the two floors (T25, T26). -/
theorem witness_PdecReportsTheFirstFailure_range :
    State.reset.params.bmSize < (0x7F0 : Half).toNat + (20 : Half).toNat ∧
      (0x7FA : Half).toNat + (6 : Half).toNat ≤ State.reset.params.bmSize ∧ (6 : Half).toNat ≤ 6 ∧
      7 ≤ (7 : Half).toNat ∧ (10 : Half).toNat ≤ 10 ∧ 11 ≤ (11 : Half).toNat := by decide

/-- T27, T28, T29, T30: the checks before the header checksum, each with those before it passed. -/
theorem witness_PdecReportsTheFirstFailure_header :
    inType (input (List.replicate 11 0)) = 0 ∧
    (inType (input (0xA0 :: List.replicate 14 0)) ≠ 0 ∧ inTr (input (0xA0 :: List.replicate 14 0)) = 1 ∧
      inType (input (0xA0 :: List.replicate 14 0)) ≠ 1) ∧
    (inType (input ([0x40, 0x82, 0x01] ++ List.replicate 12 0)) ≠ 0 ∧
      (inTr (input ([0x40, 0x82, 0x01] ++ List.replicate 12 0)) = 1 →
        inType (input ([0x40, 0x82, 0x01] ++ List.replicate 12 0)) = 1) ∧
      512 < inLen (input ([0x40, 0x82, 0x01] ++ List.replicate 12 0))) ∧
    (inType (input [0x40, 0x81, 0, 0, 0, 0, 0, 0, 0x62, 0xDE, 0xFC]) ≠ 0 ∧
      inTr (input [0x40, 0x81, 0, 0, 0, 0, 0, 0, 0x62, 0xDE, 0xFC]) = 0 ∧
      inLen (input [0x40, 0x81, 0, 0, 0, 0, 0, 0, 0x62, 0xDE, 0xFC]) ≤ 512 ∧ (11 : Half).toNat = 11 ∧
      inWidth (input [0x40, 0x81, 0, 0, 0, 0, 0, 0, 0x62, 0xDE, 0xFC]) = 2) := by decide

/-- T31, T32, T46 and T20: the checks from the header checksum on. The premises before it hold of each frame. -/
theorem witness_PdecReportsTheFirstFailure_checksums :
    (inType (input helloFrame) = 1 ∧ inTr (input helloFrame) = 0 ∧ inLen (input helloFrame) ≤ 512 ∧
      inWidth (input helloFrame) = 1) ∧
    ¬inCrc1Ok crc32IsoHdlc (input (helloFrame.set 7 0xC6)) ∧
    (inCrc1Ok crc32IsoHdlc (input helloFrame) ∧ (19 : Half).toNat < inLen (input helloFrame) + inHeader (input helloFrame) + 8) ∧
    (inCrc1Ok crc32IsoHdlc (input (helloFrame.set 19 0x06)) ∧ ¬inCrc2Ok crc32IsoHdlc (input (helloFrame.set 19 0x06))) ∧
    (inLen (input helloFrame) + inHeader (input helloFrame) + 8 ≤ (20 : Half).toNat ∧
      inCrc2Ok crc32IsoHdlc (input helloFrame)) := by decide +kernel

theorem witness_PdecStoresADataFrame :
    (0x200 : Half).toNat + (20 : Half).toNat ≤ (ram 0x200 helloFrame).params.bmSize ∧
      inHeaderOk crc32IsoHdlc (20 : Half).toNat (input helloFrame) ∧ inTr (input helloFrame) = 0 ∧
      inType (input helloFrame) = 1 ∧
      inLen (input helloFrame) + inHeader (input helloFrame) + 8 ≤ (20 : Half).toNat ∧
      inCrc2Ok crc32IsoHdlc (input helloFrame) := by
  unfold inHeaderOk
  decide +kernel

/-- The frame of T21. -/
def ackFrame : List Byte := [0x9F, 0x00, 0x07, 0xDE, 0xAD, 0xBE, 0xEF, 0x6B, 0x14, 0x79, 0xFD, 0, 0, 0, 0]

/-- T42 cut to 11 bytes, and T21. -/
theorem witness_PdecStoresAHeaderOnly :
    ((0x200 : Half).toNat + (11 : Half).toNat ≤ State.reset.params.bmSize ∧
      inHeaderOk crc32IsoHdlc (11 : Half).toNat (input (helloFrame.set 0 0x65)) ∧
      inTr (input (helloFrame.set 0 0x65)) = 1) ∧
    ((0x200 : Half).toNat + (15 : Half).toNat ≤ State.reset.params.bmSize ∧
      inHeaderOk crc32IsoHdlc (15 : Half).toNat (input ackFrame) ∧ inType (input ackFrame) ≠ 1 ∧
      inLen (input ackFrame) + inHeader (input ackFrame) + 8 ≤ (15 : Half).toNat) := by
  unfold inHeaderOk
  decide +kernel

/-- Program 2: the truncated frame, decoded without its payload. -/
def headerOnly : State := after (.pdec .p1 0x200 11) (ram 0x200 (helloFrame.set 0 0x65))

theorem witness_HeaderOnlyPacketsCannotBeEncoded :
    exec (.pdec .p1 0x200 11) (ram 0x200 (helloFrame.set 0 0x65)) = .next headerOnly ∧
      headerOnly.rsp.st = .ok ∧ (headerOnly.bank .p1).pv = false ∧ (headerOnly.bank .p1).len ≠ 0 ∧
      (0x400 : Half).toNat + (64 : Half).toNat ≤ (ram 0x200 (helloFrame.set 0 0x65)).params.bmSize :=
  ⟨rfl, by decide +kernel, by decide +kernel, by decide +kernel, by decide⟩

/-- What `PENC` leaves of this bank, at 0x200 with 20 bytes of capacity, in a build that masks or does not. -/
def encoded (b : Bank) (mask : Bool) : State :=
  after (.penc .p0 0x200 20) { banked b with params := { Config.Params.default with encMaskTr := mask } }

/-- The premise about `PENC` of this witness and the next four. -/
theorem encoded_eq (b : Bank) (mask : Bool) :
    exec (.penc .p0 0x200 20) { banked b with params := { Config.Params.default with encMaskTr := mask } } =
      .next (encoded b mask) := rfl

theorem witness_EncodedPacketsDecode :
    exec (.penc .p0 0x200 20) (banked hello) = .next (encoded hello false) ∧ (encoded hello false).rsp.st = .ok ∧
      ((banked hello).bank .p0).type ≠ 0 ∧ ((banked hello).bank .p0).tr = 0 ∧
      ((banked hello).bank .p0).len.toNat ≤ 512 ∧ (encoded hello false).rsp.r1.toNat ≤ (20 : Half).toNat ∧
      (0x200 : Half).toNat + (20 : Half).toNat ≤ (banked hello).params.bmSize :=
  ⟨rfl, by decide, by decide, by decide, by decide, by decide, by decide⟩

/-- The four clauses: no type, a truncated NACK (T51), a truncated DATA packet in either build (T19). -/
theorem witness_TruncatedPacketsDecodeOnlyIfMasked :
    ((encoded { hello with type := 0 } false).rsp.st = .ok ∧
      (encoded { hello with type := 0 } false).rsp.r1.toNat ≤ (20 : Half).toNat) ∧
    ((encoded { hello with type := 3, tr := 1 } false).rsp.st = .ok ∧ (3 : BitVec 2) ≠ 0 ∧ (3 : BitVec 2) ≠ 1) ∧
    ((encoded { hello with tr := 1 } false).rsp.st = .ok ∧
      (encoded { hello with tr := 1 } false).params.encMaskTr = false ∧
      (encoded { hello with tr := 1 } false).params.crc32 = .isoHdlc) ∧
    ((encoded { hello with tr := 1 } true).rsp.st = .ok ∧
      (encoded { hello with tr := 1 } true).params.encMaskTr = true) := by decide

theorem witness_TruncatedBitMayBeSetInFlight :
    (encoded hello false).rsp.st = .ok ∧ hello.type = 1 ∧ hello.tr = 0 ∧ hello.len.toNat ≤ 512 ∧
      11 ≤ (11 : Half).toNat ∧ headerSize hello.len.toNat + 4 ≤ (11 : Half).toNat ∧
      (0x200 : Half).toNat + (11 : Half).toNat ≤ (banked hello).params.bmSize := by decide

/-- Both ends of both ranges of offsets. -/
theorem witness_HeaderBitFlipsAreDetected :
    (encoded hello false).rsp.st = .ok ∧ (banked hello).params.crc32 = .isoHdlc ∧ hello.type ≠ 0 ∧ hello.tr = 0 ∧
      hello.len.toNat ≤ 512 ∧ (0 = 0 ∧ 4 < 5) ∧
      (1 + lengthWidth hello.len.toNat ≤ 2 ∧ 2 < headerSize hello.len.toNat + 4 ∧ 7 < 8) ∧
      (1 + lengthWidth hello.len.toNat ≤ 10 ∧ 10 < headerSize hello.len.toNat + 4) := by decide

/-- The first payload byte and the last byte of CRC2; a DATA packet and an ACK. -/
theorem witness_PayloadBitFlipsAreDetectedInData :
    ((encoded hello false).rsp.st = .ok ∧ (banked hello).params.crc32 = .isoHdlc ∧ hello.type = 1 ∧ hello.tr = 0 ∧
      headerSize hello.len.toNat + 4 ≤ 11 ∧ 19 < (encoded hello false).rsp.r1.toNat ∧ 7 < 8) ∧
    ((encoded { hello with type := 2 } false).rsp.st = .ok ∧ (2 : BitVec 2) ≠ 0 ∧ (2 : BitVec 2) ≠ 1 ∧
      19 < (encoded { hello with type := 2 } false).rsp.r1.toNat) := by decide

theorem witness_BmwrWritesOneByte :
    (0x7FF : Half).toNat < State.reset.params.bmSize ∧ State.reset.params.bmSize ≤ (0x800 : Half).toNat := by decide

theorem witness_BmrdReadsOneByte :
    (0x7FF : Half).toNat < State.reset.params.bmSize ∧ State.reset.params.bmSize ≤ (0xFFFF : Half).toNat := by decide

theorem witness_BmrdAfterBmwr :
    exec (.bmwr 0x7FF 0x12) State.reset = .next (after (.bmwr 0x7FF 0x12) State.reset) ∧
      (after (.bmwr 0x7FF 0x12) State.reset).rsp.st = .ok ∧ (0x7FF : Half).toNat < State.reset.params.bmSize :=
  ⟨rfl, by decide, by decide⟩

end Sys2Proof.Tests
end

section
/-! SUPPORT. The invariant of R46: each operation on the state keeps it, so every instruction and every step does, and
the reset state has it. -/

namespace Sys2Proof.Machine

/-! ### Reset -/

/-- All fields of a bank are zero after reset, its payload is absent and its store empty (R45). -/
theorem Bank.reset_legal : Bank.reset.Legal := by decide

/-- `(Ok, 0, 0)` is no failure (R45). -/
theorem Rsp.reset_legal : Rsp.reset.Legal := fun h => absurd rfl h

/-- The defaults of R8 meet the constraint of R8. -/
theorem Params.default_allowed : Config.Params.default.Allowed := by decide

/-- The reset values are legal in every build that R8 allows (R45). -/
theorem State.applyReset_legal {s : State} (h : s.params.Allowed) : s.applyReset.Legal :=
  ⟨Bank.reset_legal, Bank.reset_legal, Rsp.reset_legal, .nil, fun _ hc => absurd hc List.not_mem_nil, h⟩

/-! ### One rule for each operation on the state -/

section

variable {s : State} (h : s.Legal)
include h

theorem State.Legal.bank (k : BankId) : (s.bank k).Legal := by
  obtain ⟨h0, h1, _⟩ := h
  cases k
  · exact h0
  · exact h1

/-- The invariant says nothing of `rsp_valid`. -/
theorem State.Legal.idle : s.idle.Legal := h

/-- The invariant says nothing of what the host will drive. -/
theorem State.Legal.dropInput : s.dropInput.Legal := h

/-- A legal response keeps the invariant (R34, R46). -/
theorem State.Legal.respond {r : Rsp} (hr : r.Legal) : (s.respond r).Legal := by
  obtain ⟨h0, h1, _, hrest⟩ := h
  exact ⟨h0, h1, hr, hrest⟩

theorem State.Legal.ok (r0 : Word) (r1 : Nat) : (s.ok r0 r1).Legal :=
  h.respond fun hne => absurd rfl hne

/-- A failure has zero results (R292). -/
theorem State.Legal.raise (kind : Status) : (s.raise kind).Legal :=
  h.respond fun _ => ⟨rfl, rfl⟩

theorem State.Legal.setBank (k : BankId) {b : Bank} (hb : b.Legal) : (s.setBank k b).Legal := by
  obtain ⟨h0, h1, hrest⟩ := h
  cases k
  · exact ⟨hb, h1, hrest⟩
  · exact ⟨h0, hb, hrest⟩

/-- Bytes that end inside the buffer memory keep it canonical and within its bound (R60, R72). -/
theorem State.Legal.memWrite {a : Nat} {bytes : List Byte} (ha : a + bytes.length ≤ s.params.bmSize) :
    (s.memWrite a bytes).Legal := by
  obtain ⟨h0, h1, hr, hwf, hbound, hp⟩ := h
  exact ⟨h0, h1, hr, Memory.wf_setBytes bytes s.bm a hwf, Memory.bounded_setBytes bytes s.bm a _ hbound ha, hp⟩

end

/-! ### Every instruction and every step -/

/-- Each of the four things an instruction can do keeps the invariant. -/
theorem ExecCase.legal {s t : State} {i : Instr} (hc : ExecCase s i t) (h : s.Legal) : t.Legal := by
  cases hc with
  | failed kind _ _ => exact h.raise kind
  | answered r0 r1 _ => exact h.ok r0 r1
  | banked k b r1 _ hb => exact (h.setBank k (hb.legal (h.bank k))).ok 0 r1
  | stored bytes r0 r1 _ hlen hfits => exact (h.memWrite (by omega)).ok r0 r1

/-- What a command word does: an operation, or `IllegalCommand` (R94, R116). -/
theorem runCommand_cases {w : Cmd} {s t : State} (h : runCommand w s = .next t) :
    (∃ i, decode (.command w) = .ok i ∧ exec i s = .next t) ∨
      (∃ e, decode (.command w) = .error e ∧ t = s.raise .illegalCommand) := by
  unfold runCommand at h
  split at h
  next i hd => exact .inl ⟨i, hd, h⟩
  next e hd =>
    injection h with ht
    exact .inr ⟨e, hd, ht.symm⟩

/-- Everything a step can do (R38, R39, R299, R310): stay idle, take the reset values, or run a command word. -/
theorem step_cases {s t : State} (h : step s = .next t) :
    (s.inputs = [] ∧ t = s.idle) ∨
    (∃ rest, s.inputs = .idle :: rest ∧ t = s.dropInput.idle) ∨
    (∃ rest, s.inputs = .rst :: rest ∧ t = s.dropInput.applyReset) ∨
    (∃ w rest, s.inputs = .command w :: rest ∧ runCommand w s.dropInput = .next t) := by
  unfold step at h
  split at h
  next hi =>
    injection h with ht
    exact .inl ⟨hi, ht.symm⟩
  next rest hi =>
    injection h with ht
    exact .inr (.inl ⟨rest, hi, ht.symm⟩)
  next rest hi =>
    injection h with ht
    exact .inr (.inr (.inl ⟨rest, hi, ht.symm⟩))
  next w rest hi => exact .inr (.inr (.inr ⟨w, rest, hi, h⟩))

theorem runCommand_legal {w : Cmd} {s t : State} (h : s.Legal) (hrun : runCommand w s = .next t) : t.Legal := by
  obtain ⟨i, _, hexec⟩ | ⟨_, _, rfl⟩ := runCommand_cases hrun
  · exact (exec_case hexec).legal h
  · exact h.raise .illegalCommand

/-- Settles O18: the reset state has the reset values and the default parameters, and the invariant says nothing of
the reset counter. -/
theorem resetIsLegal : Obligations.ResetIsLegal :=
  State.applyReset_legal (s := State.reset) Params.default_allowed

/-- Settles O19, by the four things a step can do; for a command word, by the four things an instruction can do. -/
theorem stepKeepsLegal : Obligations.StepKeepsLegal := by
  intro s t h hstep
  obtain ⟨_, rfl⟩ | ⟨_, _, rfl⟩ | ⟨_, _, rfl⟩ | ⟨w, _, _, hrun⟩ := step_cases hstep
  · exact h.idle
  · exact h.dropInput.idle
  · obtain ⟨_, _, _, _, _, hp⟩ := h
    exact State.applyReset_legal hp
  · exact runCommand_legal h.dropInput hrun

end Sys2Proof.Machine
end

section
/-! SUPPORT. What a step does with each input, that every instruction completes, and what an instruction leaves alone:
the parameters, the coming inputs, the reset counter and the banks it does not name. -/

namespace Sys2Proof.Machine

/-! ### One rule for each input -/

theorem step_of_no_input {s : State} (h : s.inputs = []) : step s = .next s.idle := by
  simp only [step, h]

theorem step_of_idle {s : State} {rest : List Input} (h : s.inputs = .idle :: rest) :
    step s = .next s.dropInput.idle := by
  simp only [step, h]

theorem step_of_rst {s : State} {rest : List Input} (h : s.inputs = .rst :: rest) :
    step s = .next s.dropInput.applyReset := by
  simp only [step, h]

theorem step_of_command {s : State} {w : Cmd} {rest : List Input} (h : s.inputs = .command w :: rest) :
    step s = runCommand w s.dropInput := by
  simp only [step, h]

theorem runCommand_of_decode_ok {w : Cmd} {i : Instr} (h : decode (.command w) = .ok i) (s : State) :
    runCommand w s = exec i s := by
  simp only [runCommand, h]

theorem runCommand_of_decode_error {w : Cmd} {e : DecodeError} (h : decode (.command w) = .error e) (s : State) :
    runCommand w s = .next (s.raise .illegalCommand) := by
  simp only [runCommand, h, State.notAnOperation]

/-- The state with its first input taken off, spelled as a record update. -/
theorem State.dropInput_of_cons {s : State} {x : Input} {rest : List Input} (h : s.inputs = x :: rest) :
    s.dropInput = { s with inputs := rest } := by
  simp only [State.dropInput, h, List.tail_cons]

/-! ### Completion -/

/-- Every arm of `exec` gives a next state (R44). -/
theorem exec_completes (i : Instr) (s : State) : ∃ t, exec i s = .next t := by
  cases i <;> exact ⟨_, rfl⟩

theorem runCommand_completes (w : Cmd) (s : State) : ∃ t, runCommand w s = .next t := by
  cases hd : decode (.command w) with
  | ok i => exact runCommand_of_decode_ok hd s ▸ exec_completes i s
  | error e => exact ⟨_, runCommand_of_decode_error hd s⟩

/-! ### What an instruction leaves alone -/

section

variable {s t : State} {i : Instr} (hc : ExecCase s i t)
include hc

/-- An instruction leaves the parameters, the coming inputs and the reset counter alone. -/
theorem ExecCase.sameBuild : SameBuild s t := by
  cases hc with
  | failed _ _ _ => exact ⟨rfl, rfl, rfl⟩
  | answered _ _ _ => exact ⟨rfl, rfl, rfl⟩
  | banked k b _ _ _ => exact ⟨s.setBank_params k b, s.setBank_inputs k b, s.setBank_resets k b⟩
  | stored _ _ _ _ _ _ => exact ⟨rfl, rfl, rfl⟩

/-- Every instruction pulses `rsp_valid` (R38). -/
theorem ExecCase.rspValid_eq : t.rspValid = true := by
  cases hc with
  | failed _ _ _ => rfl
  | answered _ _ _ => rfl
  | banked _ _ _ _ _ => rfl
  | stored _ _ _ _ _ _ => rfl

/-- A bank that the instruction does not write is as before (R171, R189, R222). -/
theorem ExecCase.bank_eq {k : BankId} (hk : writesBank i k = false) : t.bank k = s.bank k := by
  cases hc with
  | failed kind _ _ => exact s.bank_raise k kind
  | answered r0 r1 _ => exact s.bank_ok k r0 r1
  | banked j b r1 _ hb =>
    have hne : k ≠ j := by
      rintro rfl
      exact Bool.false_ne_true (hk.symm.trans hb.names)
    rw [State.bank_ok, State.bank_setBank_of_ne _ _ _ _ hne]
  | stored _ _ _ _ _ _ => rw [State.bank_ok, State.bank_memWrite]

/-- A type that is set stays set under every instruction but `PCLEAR` of its bank (R22). -/
theorem ExecCase.type_ne_zero {k : BankId} (hi : i ≠ .pclear k) (hk : (s.bank k).type ≠ 0) :
    (t.bank k).type ≠ 0 := by
  cases hc with
  | failed _ _ _ => rwa [State.bank_raise]
  | answered _ _ _ => rwa [State.bank_ok]
  | stored _ _ _ _ _ _ => rwa [State.bank_ok, State.bank_memWrite]
  | banked j b r1 _ hb =>
    rw [State.bank_ok, State.bank_setBank]
    split
    next hkj =>
      subst hkj
      have hnames := hb.names
      refine hb.typed (fun j hj => hi ?_) hk
      subst hj
      rw [show j = k by simpa [writesBank] using hnames]
    next => exact hk

end

/-! ### Steps -/

/-- Settles O8. -/
theorem stepRunsTheDecodedInstruction : Obligations.StepRunsTheDecodedInstruction := by
  intro s w rest i hin hd
  rw [step_of_command hin, runCommand_of_decode_ok hd, State.dropInput_of_cons hin]

/-- Settles O11, by the four forms of the next input. -/
theorem everyStepIsNext : Obligations.EveryStepIsNext := by
  intro s
  cases hin : s.inputs with
  | nil => exact ⟨_, step_of_no_input hin⟩
  | cons x rest =>
    cases x with
    | idle => exact ⟨_, step_of_idle hin⟩
    | rst => exact ⟨_, step_of_rst hin⟩
    | command w => exact step_of_command hin ▸ runCommand_completes w s.dropInput

/-- Settles O12: the idle step is `State.idle`, with an input taken off where there is one. -/
theorem idleStepRetainsState : Obligations.IdleStepRetainsState := by
  rintro s (hin | ⟨rest, hin⟩)
  · exact ⟨_, step_of_no_input hin, rfl, fun k => s.bank_idle k, fun _ => rfl, rfl, rfl, by simp [hin], rfl⟩
  · exact ⟨_, step_of_idle hin, rfl, fun k => by simp, fun _ => rfl, rfl, rfl, rfl, rfl⟩

/-- Settles O27, by the four things a step can do; no instruction changes the parameters. -/
theorem parametersNeverChange : Obligations.ParametersNeverChange := by
  intro s t hstep
  obtain ⟨_, rfl⟩ | ⟨_, _, rfl⟩ | ⟨_, _, rfl⟩ | ⟨w, _, _, hrun⟩ := step_cases hstep
  · rfl
  · rfl
  · rfl
  · obtain ⟨i, _, hexec⟩ | ⟨_, _, rfl⟩ := runCommand_cases hrun
    · obtain ⟨hparams, _, _⟩ := (exec_case hexec).sameBuild
      exact hparams
    · rfl

/-- Settles O26, by the four things a step can do: idle and refused steps keep the bank, and an instruction that unsets
the type is `PCLEAR` of the bank. -/
theorem typeIsUnsetOnlyByClearOrReset : Obligations.TypeIsUnsetOnlyByClearOrReset := by
  intro s t k hstep hset hunset
  obtain ⟨_, rfl⟩ | ⟨_, _, rfl⟩ | ⟨rest, hin, rfl⟩ | ⟨w, rest, hin, hrun⟩ := step_cases hstep
  · exact absurd hunset (by simpa using hset)
  · exact absurd hunset (by simpa using hset)
  · exact .inl (by rw [hin, List.head?_cons])
  · refine .inr ⟨w, by rw [hin, List.head?_cons], ?_⟩
    obtain ⟨i, hd, hexec⟩ | ⟨_, _, rfl⟩ := runCommand_cases hrun
    · by_cases hi : i = .pclear k
      · rw [hd, hi]
      · exact absurd hunset ((exec_case hexec).type_ne_zero hi (by simpa using hset))
    · exact absurd hunset (by simpa using hset)

end Sys2Proof.Machine
end

section
/-! SUPPORT. The reset values and the output ports (R38, R45, R310). -/

namespace Sys2Proof.Machine

/-- After reset every payload byte is unspecified anew (R32, R45, R310). -/
@[simp] theorem State.plByte_applyReset (s : State) (k : BankId) (i : Nat) :
    s.applyReset.plByte k i = Config.plUnwritten (s.resets + 1) (BankId.number k) i := by
  simp [State.plByte, Bank.reset, Memory.get?]

@[simp] theorem State.bank_reset (k : BankId) : State.reset.bank k = Bank.reset := by
  cases k <;> rfl

theorem State.rstHigh_iff (s : State) : s.rstHigh = true ↔ s.inputs.head? = some .rst := by
  simp [State.rstHigh]

theorem State.outPorts_of_rst {s : State} (h : s.inputs.head? = some .rst) :
    s.outPorts.cmdReady = false ∧ s.outPorts.rspValid = false := by
  simp [State.outPorts, s.rstHigh_iff.2 h]

theorem State.outPorts_of_not_rst {s : State} (h : s.inputs.head? ≠ some .rst) :
    s.outPorts.cmdReady = true ∧ s.outPorts.rspValid = s.rspValid := by
  have hr : s.rstHigh = false := Bool.eq_false_iff.2 (mt s.rstHigh_iff.1 h)
  simp [State.outPorts, hr]

/-- Settles O14. -/
theorem resetStateIsEmpty : Obligations.ResetStateIsEmpty := by
  refine ⟨fun k => ?_, rfl, rfl, rfl⟩
  rw [State.bank_reset]
  exact ⟨rfl, rfl, rfl, rfl, rfl, rfl, rfl, rfl, rfl, rfl⟩

/-- Settles O15: the step is `State.applyReset`. -/
theorem rstTakesTheResetState : Obligations.RstTakesTheResetState := by
  intro s rest hin
  refine ⟨_, step_of_rst hin, fun k => ?_, rfl, rfl, rfl, ?_, rfl, fun a => ?_, fun k i => ?_⟩
  · rw [State.bank_applyReset, State.bank_reset]
  · rw [State.applyReset_inputs, State.dropInput_inputs, hin, List.tail_cons]
  · rw [State.bmByte_applyReset, State.dropInput_resets]
  · rw [State.plByte_applyReset, State.dropInput_resets]

/-- Settles O16: an instruction pulses `rsp_valid` and leaves the coming inputs alone, so `rst` is as low after it as
before. -/
theorem portsShowTheResponse : Obligations.PortsShowTheResponse := by
  refine ⟨fun s => ⟨rfl, rfl, rfl⟩, fun s rest hin => ?_, fun s hlow => ?_, fun i s t hexec hlow => ?_⟩
  · exact State.outPorts_of_rst (by rw [hin, List.head?_cons])
  · obtain ⟨hready, _⟩ := State.outPorts_of_not_rst hlow
    exact hready
  · have hc := exec_case hexec
    obtain ⟨_, hinputs, _⟩ := hc.sameBuild
    obtain ⟨_, hvalid⟩ := State.outPorts_of_not_rst (s := t) (by rwa [hinputs])
    rw [hvalid, hc.rspValid_eq]

end Sys2Proof.Machine
end

section
/-! SUPPORT. Presenting a table word (R38, R90): the word of an operation decodes to the operation, and the bits of a wire
row, padded with zeros, have the reserved opcode 0x00 (R113; notes/assumptions 2 and 8). -/

namespace Sys2Proof

/-- The word of an operation decodes to what its opcode builds from its fields, when no field is used in vain (R94). -/
theorem decode_command_of_operation {op : BitVec 8} {k : BitVec 1} {b : BitVec 16} {a : BitVec 32} {fmt : Format}
    {build : CmdFields → Instr} (ho : operation op = some (fmt, build))
    (hs : fmt.stray { op := op, z := 0, k := k, b := b, a := a } = false) :
    decode (command op k b a) = .ok (build { op := op, z := 0, k := k, b := b, a := a }) :=
  decodeCommand_toCmd (f := { op := op, z := 0, k := k, b := b, a := a }) ho rfl hs

/-- A command word that encodes an instruction decodes to it (R93, R94). -/
theorem decode_of_encode_eq_command {i : Instr} {w : Cmd} (h : encode i = .command w) :
    decode (.command w) = .ok i := by
  rw [← h]
  cases i with
  | wireVarint1 | wireVarint2 | wireByte0 => simp [encode] at h
  | _ =>
    refine (decode_command_of_operation rfl ?_).trans ?_
    · simp [Format.stray, Format.usesK, Format.usesB, Format.aBits]
    · simp [CmdFields.al, CmdFields.ah, CmdFields.a8]

end Sys2Proof

namespace Sys2Proof.Machine

@[simp] theorem State.inputs_withFetchWord (s : State) (nbits w : Nat) :
    (s.withFetchWord nbits w).inputs = presented nbits w :: s.inputs := rfl

/-- Taking the presented word off gives the state back. -/
@[simp] theorem State.dropInput_withFetchWord (s : State) (nbits w : Nat) :
    (s.withFetchWord nbits w).dropInput = s := rfl

/-- A presented word runs as a command. -/
theorem step_withFetchWord (s : State) (nbits n : Nat) :
    step (s.withFetchWord nbits n) = runCommand (BitVec.ofNat 64 (n % 2 ^ nbits)) s := by
  rw [step_of_command (s.inputs_withFetchWord nbits n), State.dropInput_withFetchWord]

/-- A word below `2 ^ 56` has the reserved opcode 0x00 (R113). -/
theorem decode_command_of_lt {n : Nat} (h : n < 2 ^ 56) :
    decode (.command (BitVec.ofNat 64 n)) = .error (.reservedOpcode 0) := by
  have hop : (CmdFields.ofCmd (BitVec.ofNat 64 n)).op = 0#8 := by
    apply BitVec.eq_of_toNat_eq
    simp only [CmdFields.ofCmd, BitVec.extractLsb'_toNat, BitVec.toNat_ofNat, Nat.shiftRight_eq_div_pow]
    omega
  simp only [decode, decodeCommand, hop]
  rfl

/-- Presenting fewer than 57 bits gives `IllegalCommand` (R113, R116). -/
theorem step_withFetchWord_of_short (s : State) {nbits : Nat} (h : nbits ≤ 56) (n : Nat) :
    step (s.withFetchWord nbits n) = .next (s.raise .illegalCommand) := by
  have hlt : n % 2 ^ nbits < 2 ^ 56 :=
    (Nat.mod_lt n (Nat.two_pow_pos nbits)).trans_le (Nat.pow_le_pow_right (by omega) h)
  rw [step_withFetchWord, runCommand_of_decode_error (decode_command_of_lt hlt)]

/-- Presenting all 64 bits of a command word runs what it decodes to (R39, R94). -/
theorem step_withFetchWord_of_decode (s : State) {w : Cmd} {i : Instr} (h : decode (.command w) = .ok i) :
    step (s.withFetchWord 64 w.toNat) = exec i s := by
  rw [step_withFetchWord, Nat.mod_eq_of_lt w.isLt, BitVec.ofNat_toNat, BitVec.setWidth_eq, runCommand_of_decode_ok h]

/-- Settles O9: an operation's word decodes to it, and a wire row has 8 or 16 bits. -/
theorem presentedWordRuns : Obligations.PresentedWordRuns := by
  intro s i
  cases i with
  | wireVarint1 v => exact step_withFetchWord_of_short s (nbits := 8) (by omega) _
  | wireVarint2 v => exact step_withFetchWord_of_short s (nbits := 16) (by omega) _
  | wireByte0 y r w => exact step_withFetchWord_of_short s (nbits := 8) (by omega) _
  | _ => exact step_withFetchWord_of_decode s (decode_of_encode_eq_command rfl)

end Sys2Proof.Machine
end

section
/-! SUPPORT. The payload operations in the words of the rules: what a payload store reads after a bank was replaced, and
`SETPAY`, `GETPAY` and `PENC` as chains of checks (R180, R198, R210). -/

namespace Sys2Proof.Machine

section

variable (s : State) (k : BankId)

/-! ### Payload bytes -/

/-- A new bank with the same payload store reads the same payload bytes. -/
theorem State.plByte_setBank_of_pl_eq {b : Bank} (hb : b.pl = (s.bank k).pl) :
    (s.setBank k b).plByte k = s.plByte k :=
  State.plByte_congr k s _ (by rw [State.bank_setBank_same, hb]) (s.setBank_resets k b)

/-- A new bank whose payload store had bytes copied to its start reads these bytes there. -/
theorem State.plByte_setBank_of_copied {b : Bank} {bytes : List Byte} (hb : b.pl = (s.bank k).pl.setBytes 0 bytes)
    {i : Nat} (hi : i < bytes.length) : (s.setBank k b).plByte k i = bytes[i] := by
  simp [State.plByte, hb, Bank.get?_pl_setBytes, hi]

theorem State.plByte_setBank_of_ne {j : BankId} {b : Bank} (hj : j ≠ k) : (s.setBank k b).plByte j = s.plByte j :=
  State.plByte_congr j s _ (by rw [State.bank_setBank_of_ne s k j b hj]) (s.setBank_resets k b)

theorem State.plRead_congr {s s' : State} {k : BankId} {n : Nat} (h : ∀ i, i < n → s'.plByte k i = s.plByte k i) :
    s'.plRead k n = s.plRead k n :=
  slice_congr fun i hi => by simpa using h i hi

/-- A frame depends on the build, the header, the length and the payload bytes it carries: not on the checksum fields,
nor on any other payload byte (R210, R222). -/
theorem State.frame_congr {s s' : State} {k : BankId} (hparams : s'.params = s.params)
    (hheader : (s'.bank k).header = (s.bank k).header) (hlen : (s'.bank k).len = (s.bank k).len)
    (hpl : ∀ i, i < (s.bank k).len.toNat → s'.plByte k i = s.plByte k i) : s'.frame k = s.frame k := by
  simp only [State.frame, State.crc1Input, State.crc_eq, hparams, hheader, hlen, State.plRead_congr hpl]

/-! ### The operations -/

theorem exec_setpay_eq (base len : Half) : exec (.setpay k base len) s = .next (
    if ¬base.toNat + len.toNat ≤ s.params.bmSize then s.raise .addressError
    else if 512 < len.toNat then s.raise .payloadTooLarge
    else (s.setBank k ((s.bank k).assignPayload (s.memRead base.toNat len.toNat))).ok 0 len.toNat) := by
  simp only [exec, execSetpay, Bool.not_eq_true', ← Bool.not_eq_true, State.inRange_iff, Config.lenCap, gt_iff_lt]

theorem exec_getpay_eq (base : Half) : exec (.getpay k base) s = .next (
    if ¬base.toNat + (s.bank k).epl ≤ s.params.bmSize then s.raise .addressError
    else if (s.bank k).pv = false then s.ok 0 0
    else (s.memWrite base.toNat (s.plRead k (s.bank k).epl)).ok 1 (s.bank k).epl) := by
  simp only [exec, execGetpay, Bool.not_eq_true', ← Bool.not_eq_true, State.inRange_iff]

theorem exec_penc_eq (base cap : Half) : exec (.penc k base cap) s = .next (
    if ¬base.toNat + cap.toNat ≤ s.params.bmSize then s.raise .addressError
    else if ¬(s.bank k).len.toNat = (s.bank k).epl then s.raise .invalidLength
    else if cap.toNat < headerSize (s.bank k).len.toNat + 8 + (s.bank k).len.toNat then s.raise .bufferTooSmall
    else (s.memWrite base.toNat (s.frame k)).ok 0 (headerSize (s.bank k).len.toNat + 8 + (s.bank k).len.toNat)) := by
  simp only [exec, execPenc, vpredict_len, frameSize_eq, Bank.lengthConsistent, Bool.not_eq_true', ← Bool.not_eq_true,
    State.inRange_iff, decide_eq_true_eq]
  rfl

end

/-- A `SETPAY` that succeeds has copied at most 512 bytes of the buffer memory in (R180). -/
theorem setpay_of_ok {s t : State} {k : BankId} {base len : Half} (h : exec (.setpay k base len) s = .next t)
    (hok : t.rsp.st = .ok) : len.toNat ≤ 512 ∧
      t = (s.setBank k ((s.bank k).assignPayload (s.memRead base.toNat len.toNat))).ok 0 len.toNat := by
  rw [exec_setpay_eq, Host.Outcome.next.injEq] at h
  subst h
  split at hok
  next => cases hok
  next hr =>
    split at hok
    next => cases hok
    next hl => exact ⟨Nat.le_of_not_lt hl, by rw [if_neg hr, if_neg hl]⟩

/-- The bytes that an assigned payload has (R33, R180). -/
theorem Bank.assignPayload_epl (b : Bank) {bytes : List Byte} (h : bytes.length ≤ 512) :
    (b.assignPayload bytes).epl = bytes.length := by
  simp only [Bank.epl, Bank.assignPayload, narrowPlen_toNat h, if_true]

/-- Settles O45: the payload store has the bytes that `SETPAY` read, `BMWR` leaves the bank alone, and `GETPAY` writes
out the store's bytes. -/
theorem payloadIsACopy : Obligations.PayloadIsACopy := by
  intro k base len addr out byte s t u hset hok hwr hfits
  have hbmwr := exec_case hwr
  have hbank : u.bank k = t.bank k := hbmwr.bank_eq rfl
  obtain ⟨hparams, _, hresets⟩ := hbmwr.sameBuild
  obtain ⟨hlen, rfl⟩ := setpay_of_ok hset hok
  have hread := s.memRead_length base.toNat len.toNat
  have hu : u.bank k = (s.bank k).assignPayload (s.memRead base.toNat len.toNat) := by
    rw [hbank, State.bank_ok, State.bank_setBank_same]
  have hpv : (u.bank k).pv = true := by rw [hu]; rfl
  have hepl : (u.bank k).epl = len.toNat := by
    rw [hu, Bank.assignPayload_epl _ (by rwa [hread]), hread]
  have hfit : ¬¬out.toNat + (u.bank k).epl ≤ u.params.bmSize := by
    rw [hepl, hparams]
    simpa using hfits
  have hget := exec_getpay_eq u k out
  rw [if_neg hfit, if_neg (by simp [hpv]), hepl] at hget
  refine ⟨_, hget, ⟨rfl, rfl, ?_, rfl⟩, fun i hi => ?_⟩
  · exact Nat.mod_eq_of_lt len.isLt
  · have hstored : u.plByte k i = s.bmByte (base.toNat + i) := by
      rw [State.plByte_congr k _ u (congrArg Bank.pl hbank) hresets, State.plByte_ok,
        State.plByte_setBank_of_copied s k rfl (by rwa [hread])]
      exact slice_getElem _ _ _ _ _
    rw [State.bmByte_ok, State.bmByte_memWrite_inside _ _ _ _ (by simpa using hi), ← hstored]
    simp [State.plRead]

/-- Settles O47: every check of `PENC` and every byte of the frame are the same with other values in `CRC1` and
`CRC2`. -/
theorem pencIgnoresTheChecksumFields : Obligations.PencIgnoresTheChecksumFields := by
  intro k base cap c1 c2 s t ht
  generalize hs' : s.setBank k { s.bank k with crc1 := c1, crc2 := c2 } = s'
  have hbank : s'.bank k = { s.bank k with crc1 := c1, crc2 := c2 } := by rw [← hs', State.bank_setBank_same]
  have hparams : s'.params = s.params := by rw [← hs', State.setBank_params]
  have hbm : s'.bm = s.bm := by rw [← hs', State.setBank_bm]
  have hlen : (s'.bank k).len = (s.bank k).len := by rw [hbank]
  have hepl : (s'.bank k).epl = (s.bank k).epl := by rw [hbank]; rfl
  have hpl : s'.plByte k = s.plByte k := hs' ▸ State.plByte_setBank_of_pl_eq s k rfl
  have hframe : s'.frame k = s.frame k :=
    State.frame_congr hparams (by rw [hbank]; rfl) hlen fun i _ => congrFun hpl i
  rw [exec_penc_eq, Host.Outcome.next.injEq] at ht
  subst ht
  refine ⟨_, exec_penc_eq s' k base cap, ?_⟩
  simp only [hparams, hlen, hepl, hframe]
  split
  next => exact ⟨rfl, hbm⟩
  next =>
    split
    next => exact ⟨rfl, hbm⟩
    next =>
      split
      next => exact ⟨rfl, hbm⟩
      next => exact ⟨rfl, by simp [hbm]⟩

end Sys2Proof.Machine
end

section
/-! SUPPORT. States that differ at most in payload bytes nobody can read (R32): what such states agree on, one rule for
each operation on the state, and with them every instruction. -/

namespace Sys2Proof.Machine

/-- The count of a payload, kept in 10 bits, is at most its length. -/
theorem narrowPlen_toNat_le (n : Nat) : (narrowPlen n).toNat ≤ n := Nat.mod_le _ _

/-- An assigned payload has no more readable bytes than were copied in (R33, R180). -/
theorem Bank.assignPayload_epl_le (b : Bank) (bytes : List Byte) : (b.assignPayload bytes).epl ≤ bytes.length :=
  narrowPlen_toNat_le bytes.length

/-- A bank with the same fields is the same bank with another payload store. -/
theorem Bank.SameFields.exists_pl {a b : Bank} (h : a.SameFields b) : ∃ p, b = { a with pl := p } :=
  ⟨b.pl, by rw [← h]⟩

section

variable {s s' : State} (h : SameReadable s s')
include h

/-! ### What the two states agree on -/

theorem SameReadable.params_eq : s'.params = s.params := by
  obtain ⟨_, _, _, ⟨hparams, _, _⟩, _⟩ := h
  exact hparams

theorem SameReadable.resets_eq : s'.resets = s.resets := by
  obtain ⟨_, _, _, ⟨_, _, hresets⟩, _⟩ := h
  exact hresets

theorem SameReadable.bmByte_eq : s'.bmByte = s.bmByte := by
  obtain ⟨_, _, hbm, ⟨_, _, hresets⟩, _⟩ := h
  funext a
  simp only [State.bmByte, hbm, hresets]

theorem SameReadable.memRead_eq (a n : Nat) : s'.memRead a n = s.memRead a n := by
  simp only [State.memRead, h.bmByte_eq]

theorem SameReadable.inRange_eq (base : Half) (n : Nat) : s'.inRange base n = s.inRange base n := by
  simp only [State.inRange, h.params_eq]

theorem SameReadable.crc_eq (e : Engine) : s'.crc e = s.crc e := by
  funext bytes
  simp only [State.crc, h.params_eq]

theorem SameReadable.bank_sameFields (k : BankId) : (s.bank k).SameFields (s'.bank k) := by
  obtain ⟨hbanks, _⟩ := h
  obtain ⟨hfields, _⟩ := hbanks k
  exact hfields

/-- Whatever is read of a bank without its payload store is the same. -/
theorem SameReadable.field_eq {α : Type} (f : Bank → α) (k : BankId)
    (hf : ∀ b p, f { b with pl := p } = f b := by intros; rfl) :
    f (s'.bank k) = f (s.bank k) := by
  obtain ⟨p, hp⟩ := (h.bank_sameFields k).exists_pl
  rw [hp, hf]

theorem SameReadable.epl_eq (k : BankId) : (s'.bank k).epl = (s.bank k).epl :=
  h.field_eq Bank.epl k

theorem SameReadable.plByte_eq {k : BankId} {i : Nat} (hi : i < (s.bank k).epl) : s'.plByte k i = s.plByte k i := by
  obtain ⟨hbanks, _⟩ := h
  obtain ⟨_, hpl⟩ := hbanks k
  exact hpl i hi

/-- A frame carries readable payload bytes only, once `LEN` is the effective payload length (R210). -/
theorem SameReadable.frame_eq {k : BankId} (hlen : (s.bank k).len.toNat = (s.bank k).epl) :
    s'.frame k = s.frame k :=
  State.frame_congr h.params_eq (h.field_eq Bank.header k) (h.field_eq Bank.len k)
    fun _ hi => h.plByte_eq (hlen ▸ hi)

/-! ### One rule for each operation on the state -/

theorem SameReadable.respond (r : Rsp) : SameReadable (s.respond r) (s'.respond r) := by
  obtain ⟨hbanks, _, hbm, hbuild, _⟩ := h
  exact ⟨fun k => by simpa using hbanks k, rfl, hbm, hbuild, rfl⟩

theorem SameReadable.ok (r0 : Word) (r1 : Nat) : SameReadable (s.ok r0 r1) (s'.ok r0 r1) := h.respond _

theorem SameReadable.raise (kind : Status) : SameReadable (s.raise kind) (s'.raise kind) := h.respond _

theorem SameReadable.memWrite (a : Nat) (bytes : List Byte) :
    SameReadable (s.memWrite a bytes) (s'.memWrite a bytes) := by
  obtain ⟨hbanks, hrsp, hbm, hbuild, hvalid⟩ := h
  exact ⟨fun k => by simpa using hbanks k, hrsp, by simp [hbm], hbuild, hvalid⟩

theorem SameReadable.setBank (k : BankId) {b b' : Bank} (hfields : b.SameFields b')
    (hpl : ∀ i, i < b.epl → (s'.setBank k b').plByte k i = (s.setBank k b).plByte k i) :
    SameReadable (s.setBank k b) (s'.setBank k b') := by
  obtain ⟨hbanks, hrsp, hbm, hbuild, hvalid⟩ := h
  refine ⟨fun j => ?_, by simpa using hrsp, by simpa using hbm, by simpa [SameBuild] using hbuild,
    by simpa using hvalid⟩
  by_cases hj : j = k
  · subst hj
    simpa using ⟨hfields, hpl⟩
  · rw [State.bank_setBank_of_ne s k j b hj, State.bank_setBank_of_ne s' k j b' hj, State.plByte_setBank_of_ne s k hj,
      State.plByte_setBank_of_ne s' k hj]
    exact hbanks j

/-- A change of fields that leaves the payload store alone and makes no byte readable. -/
theorem SameReadable.setFields (k : BankId) (f : Bank → Bank)
    (hf : ∀ b p, f { b with pl := p } = { f b with pl := p } := by intros; rfl)
    (hepl : ∀ b, (f b).epl ≤ b.epl := by exact fun _ => Nat.le_refl _) :
    SameReadable (s.setBank k (f (s.bank k))) (s'.setBank k (f (s'.bank k))) := by
  have hpl (b : Bank) : (f b).pl = b.pl := (congrArg Bank.pl (hf b b.pl) :)
  refine h.setBank k ?_ fun i hi => ?_
  · obtain ⟨p, hp⟩ := (h.bank_sameFields k).exists_pl
    rw [hp, hf (s.bank k) p]
    rfl
  · rw [State.plByte_setBank_of_pl_eq s k (hpl _), State.plByte_setBank_of_pl_eq s' k (hpl _)]
    exact h.plByte_eq (hi.trans_le (hepl _))

/-- A change of a bank that copies bytes to the start of the payload store and makes no other byte readable. -/
theorem SameReadable.copyIn (k : BankId) (f : Bank → Bank) (bytes : List Byte)
    (hf : ∀ b p, f { b with pl := p } = { f b with pl := p.setBytes 0 bytes })
    (hepl : ∀ b, (f b).epl ≤ bytes.length) :
    SameReadable (s.setBank k (f (s.bank k))) (s'.setBank k (f (s'.bank k))) := by
  have hpl (b : Bank) : (f b).pl = b.pl.setBytes 0 bytes := (congrArg Bank.pl (hf b b.pl) :)
  refine h.setBank k ?_ fun i hi => ?_
  · obtain ⟨p, hp⟩ := (h.bank_sameFields k).exists_pl
    rw [hp, hf (s.bank k) p]
    rfl
  · have hlt := hi.trans_le (hepl _)
    rw [State.plByte_setBank_of_copied s k (hpl _) hlt, State.plByte_setBank_of_copied s' k (hpl _) hlt]

theorem SameReadable.assignPayload (k : BankId) (bytes : List Byte) :
    SameReadable (s.setBank k ((s.bank k).assignPayload bytes)) (s'.setBank k ((s'.bank k).assignPayload bytes)) :=
  h.copyIn k (·.assignPayload bytes) bytes (fun _ _ => rfl) (Bank.assignPayload_epl_le · bytes)

/-- A shadow packet brings its payload with it, or leaves the payload absent (R241, R242, R243). -/
theorem SameReadable.commit (k : BankId) (d : Shadow) :
    SameReadable (s.setBank k ((s.bank k).commit d)) (s'.setBank k ((s'.bank k).commit d)) := by
  cases hd : d.body with
  | none =>
    refine h.setFields k (·.commit d) (fun b p => by simp [Bank.commit, hd]) fun b => ?_
    simp [Bank.epl, Bank.commit, hd]
  | some body =>
    obtain ⟨c, bytes⟩ := body
    refine h.copyIn k (·.commit d) bytes (fun b p => by simp [Bank.commit, hd]) fun b => ?_
    simpa [Bank.epl, Bank.commit, hd] using narrowPlen_toNat_le bytes.length

/-- A getter of a register field (R189). -/
theorem SameReadable.answer {w : Nat} (field : Bank → BitVec w) (k : BankId)
    (hf : ∀ b p, field { b with pl := p } = field b := by intros; rfl) :
    SameReadable (s.answer (field (s.bank k))) (s'.answer (field (s'.bank k))) := by
  rw [h.field_eq field k hf]
  exact h.ok _ _

/-! ### Every instruction -/

omit h in
/-- A check that goes the same way in both states. -/
theorem SameReadable.check {p : Prop} [Decidable p] {t t' u u' : State} (ht : SameReadable t t')
    (hu : SameReadable u u') : SameReadable (if p then t else u) (if p then t' else u') := by
  split
  next => exact ht
  next => exact hu

/-- `GETPAY` copies out readable bytes only (R198). -/
theorem SameReadable.getpay (k : BankId) (base : Half) :
    ∃ t t', exec (.getpay k base) s = .next t ∧ exec (.getpay k base) s' = .next t' ∧ SameReadable t t' := by
  refine ⟨_, _, exec_getpay_eq s k base, exec_getpay_eq s' k base, ?_⟩
  rw [h.params_eq, h.epl_eq, h.field_eq Bank.pv, State.plRead_congr fun _ hi => h.plByte_eq hi]
  exact .check (h.raise _) (.check (h.ok _ _) ((h.memWrite _ _).ok _ _))

/-- `PENC` compares `LEN` with the effective payload length before it reads the payload (R210). -/
theorem SameReadable.penc (k : BankId) (base cap : Half) :
    ∃ t t', exec (.penc k base cap) s = .next t ∧ exec (.penc k base cap) s' = .next t' ∧ SameReadable t t' := by
  refine ⟨_, _, exec_penc_eq s k base cap, exec_penc_eq s' k base cap, ?_⟩
  rw [h.params_eq, h.epl_eq, h.field_eq Bank.len]
  refine .check (h.raise _) ?_
  split
  next => exact h.raise _
  next hlen =>
    rw [h.frame_eq (not_not.1 hlen)]
    exact .check (h.raise _) ((h.memWrite _ _).ok _ _)

/-- An instruction completes from two such states in two such states. -/
theorem SameReadable.after_exec (i : Instr) :
    ∃ t t', exec i s = .next t ∧ exec i s' = .next t' ∧ SameReadable t t' := by
  cases i with
  | vpredict value =>
    refine ⟨_, _, rfl, rfl, ?_⟩
    split
    next => exact h.raise _
    next => exact h.ok _ _
  | vencode value base cap =>
    refine ⟨_, _, rfl, rfl, ?_⟩
    rw [h.inRange_eq]
    refine .check (h.raise _) ?_
    split
    next => exact h.raise _
    next => exact .check (h.raise _) ((h.memWrite _ _).ok _ _)
  | vdecode base avail =>
    refine ⟨_, _, rfl, rfl, ?_⟩
    rw [h.inRange_eq, h.memRead_eq]
    refine .check (h.raise _) ?_
    split
    next => exact h.raise _
    next => exact h.ok _ _
  | crc32 e base len =>
    refine ⟨_, _, rfl, rfl, ?_⟩
    rw [h.inRange_eq, h.memRead_eq, h.crc_eq]
    exact .check (h.raise _) (h.ok _ _)
  | pclear k =>
    refine ⟨_, _, rfl, rfl, (h.setFields k (fun b => { Bank.reset with pl := b.pl }) (hepl := fun _ => ?_)).ok _ _⟩
    exact Nat.zero_le _
  | settype k x =>
    exact ⟨_, _, rfl, rfl, .check (h.raise _) ((h.setFields k ({ · with type := narrowType x })).ok _ _)⟩
  | settr k tr =>
    refine ⟨_, _, rfl, rfl, ?_⟩
    rw [h.field_eq Bank.type]
    exact .check (h.raise _) ((h.setFields k ({ · with tr := narrowTr tr })).ok _ _)
  | setwin k w =>
    exact ⟨_, _, rfl, rfl, .check (h.raise _) ((h.setFields k ({ · with win := narrowWin w })).ok _ _)⟩
  | setlen k len =>
    refine ⟨_, _, rfl, rfl, .check (h.raise _) ?_⟩
    split
    next => exact h.raise _
    next => exact (h.setFields k ({ · with len := narrowLen len })).ok _ _
  | setseq k sq => exact ⟨_, _, rfl, rfl, (h.setFields k ({ · with seq := sq })).ok _ _⟩
  | setts k x => exact ⟨_, _, rfl, rfl, (h.setFields k ({ · with ts := x })).ok _ _⟩
  | setcrc1 k c => exact ⟨_, _, rfl, rfl, (h.setFields k ({ · with crc1 := c })).ok _ _⟩
  | setcrc2 k c => exact ⟨_, _, rfl, rfl, (h.setFields k ({ · with crc2 := c })).ok _ _⟩
  | setpay k base len =>
    refine ⟨_, _, rfl, rfl, ?_⟩
    rw [h.inRange_eq, h.memRead_eq]
    exact .check (h.raise _) (.check (h.raise _) ((h.assignPayload k _).ok _ _))
  | gettype k => exact ⟨_, _, rfl, rfl, h.answer Bank.type k⟩
  | gettr k => exact ⟨_, _, rfl, rfl, h.answer Bank.tr k⟩
  | getwin k => exact ⟨_, _, rfl, rfl, h.answer Bank.win k⟩
  | getlen k => exact ⟨_, _, rfl, rfl, h.answer Bank.len k⟩
  | getseq k => exact ⟨_, _, rfl, rfl, h.answer Bank.seq k⟩
  | getts k => exact ⟨_, _, rfl, rfl, h.answer Bank.ts k⟩
  | getcrc1 k => exact ⟨_, _, rfl, rfl, h.answer Bank.crc1 k⟩
  | getcrc2 k => exact ⟨_, _, rfl, rfl, h.answer Bank.crc2 k⟩
  | getpay k base => exact h.getpay k base
  | penc k base cap => exact h.penc k base cap
  | pdec k base len =>
    refine ⟨_, _, rfl, rfl, ?_⟩
    rw [h.inRange_eq, h.bmByte_eq, h.crc_eq, h.crc_eq]
    refine .check (h.raise _) ?_
    split
    next => exact h.raise _
    next d _ => exact (h.commit k d).ok _ _
  | bmwr addr byte =>
    refine ⟨_, _, rfl, rfl, ?_⟩
    rw [h.inRange_eq]
    exact .check (h.raise _) ((h.memWrite _ _).ok _ _)
  | bmrd addr =>
    refine ⟨_, _, rfl, rfl, ?_⟩
    rw [h.inRange_eq, h.bmByte_eq]
    exact .check (h.raise _) (h.ok _ _)
  | wireVarint1 | wireVarint2 | wireByte0 => exact ⟨_, _, rfl, rfl, h.raise _⟩

end

/-- Settles O25. -/
theorem unreadablePayloadBytesDoNotMatter : Obligations.UnreadablePayloadBytesDoNotMatter := by
  intro i s s' h t ht
  obtain ⟨u, u', hu, hu', hsame⟩ := h.after_exec i
  obtain rfl : t = u := Host.Outcome.next.inj (ht.symm.trans hu)
  exact ⟨u', hu', hsame⟩

end Sys2Proof.Machine
end

section
/-! SUPPORT. The buffer memory as the instructions see it (R61, R73): no byte outside the declared range is
written, and a read after a write gives the byte written. -/

namespace Sys2Proof.Machine

/-! ### What is written -/

/-- Bytes outside the range an instruction may write read as before; only the stored bytes are new, and they end inside
the range. -/
theorem ExecCase.sameBufferOutside {s t : State} {i : Instr} (hc : ExecCase s i t) :
    SameBufferOutside s t (writeRange s i).1 (writeRange s i).2 := by
  intro a ha
  cases hc with
  | failed kind _ _ => rw [State.bmByte_raise]
  | answered r0 r1 _ => rw [State.bmByte_ok]
  | banked k b r1 _ _ => rw [State.bmByte_ok, State.bmByte_setBank]
  | stored bytes r0 r1 _ hlen _ => rw [State.bmByte_ok, State.bmByte_memWrite_outside _ _ _ _ (by omega)]

/-- Settles O22, by the four things an instruction can do. -/
theorem onlyTheDeclaredRangeIsWritten : Obligations.OnlyTheDeclaredRangeIsWritten :=
  fun _ _ _ hexec => (exec_case hexec).sameBufferOutside

/-! ### A read after a write -/

theorem exec_bmwr_eq (s : State) (addr : Half) (byte : Byte) : exec (.bmwr addr byte) s = .next (
    if ¬addr.toNat + 1 ≤ s.params.bmSize then s.raise .addressError
    else (s.memWrite addr.toNat [byte]).ok 0 1) := by
  simp only [exec, execBmwr, Bool.not_eq_true', ← Bool.not_eq_true, State.inRange_iff]

theorem exec_bmrd_eq (s : State) (addr : Half) : exec (.bmrd addr) s = .next (
    if ¬addr.toNat + 1 ≤ s.params.bmSize then s.raise .addressError
    else s.ok (resultOf (s.bmByte addr.toNat)) 1) := by
  simp only [exec, execBmrd, Bool.not_eq_true', ← Bool.not_eq_true, State.inRange_iff]

/-- A `BMWR` that succeeds has written its byte (R260). -/
theorem bmwr_of_ok {s t : State} {addr : Half} {byte : Byte} (h : exec (.bmwr addr byte) s = .next t)
    (hok : t.rsp.st = .ok) : t = (s.memWrite addr.toNat [byte]).ok 0 1 := by
  rw [exec_bmwr_eq, Host.Outcome.next.injEq] at h
  subst h
  split at hok
  next => cases hok
  next hr => rw [if_neg hr]

/-- One written byte is read back at its address, and every other address reads as before (R62, R70). -/
theorem State.bmByte_memWrite_singleton (s : State) (a c : Nat) (v : Byte) :
    (s.memWrite a [v]).bmByte c = if c = a then v else s.bmByte c := by
  split
  next h => exact h ▸ State.bmByte_memWrite_inside s a 0 [v] Nat.one_pos
  next h => exact State.bmByte_memWrite_outside s a c [v] (by simp only [List.length_singleton]; omega)

/-- `State.ok` changes nothing but the response, whose count is kept in 16 bits (R36). -/
theorem State.onlyResponds_ok (s : State) (r0 : Word) {r1 : Nat} (h : r1 < 2 ^ 16) :
    OnlyResponds s (s.ok r0 r1) .ok r0 r1 :=
  ⟨⟨rfl, rfl, Nat.mod_eq_of_lt h, rfl⟩, fun k => s.bank_ok k r0 r1, fun _ => rfl, rfl, rfl, rfl⟩

/-- Settles O60: `BMRD` answers what the one-byte write left at its address. -/
theorem bmrdAfterBmwr : Obligations.BmrdAfterBmwr := by
  intro addr c byte s t hwr hok hc
  obtain rfl := bmwr_of_ok hwr hok
  have hread := exec_bmrd_eq ((s.memWrite addr.toNat [byte]).ok 0 1) c
  simp only [State.ok_params, State.memWrite_params, if_neg (not_not.2 (Nat.succ_le_of_lt hc)), State.bmByte_ok,
    State.bmByte_memWrite_singleton, BitVec.toNat_inj] at hread
  exact ⟨_, hread, State.onlyResponds_ok _ _ (by decide)⟩

end Sys2Proof.Machine
end

section
/-! SUPPORT. Two states that agree on the bytes an instruction may read (R61, R73): what such states agree on, the
decoder's answer among it, and with them the response and the banks after every instruction. -/

namespace Sys2Proof.Machine

/-! ### The decoder reads its `n` input bytes only -/

section

variable {f g : Nat → Byte} {n : Nat} (h : ∀ i, i < n → g i = f i)
include h

theorem slice_eq_of_agree {a m : Nat} (ha : a + m ≤ n) : slice g a m = slice f a m :=
  slice_congr fun i hi => h (a + i) (by omega)

theorem fromBe32_eq_of_agree {a : Nat} (ha : a + 4 ≤ n) : fromBe32 g a = fromBe32 f a := by
  simp only [fromBe32, h a (by omega), h (a + 1) (by omega), h (a + 2) (by omega), h (a + 3) (by omega)]

/-- The payload and CRC2 are read only when the announced frame fits in the input (R232, R240, R241). -/
theorem decodeBody_eq_of_agree (crc : List Byte → Word) (hl len : Nat) (type : BitVec 2) (tr : BitVec 1) :
    decodeBody crc n g hl len type tr = decodeBody crc n f hl len type tr := by
  rw [decodeBody_eq, decodeBody_eq]
  split
  next => rfl
  next hsize =>
    split
    next hdata =>
      obtain ⟨htr, _⟩ := hdata
      have hfits : len + hl + 8 ≤ n := Nat.le_of_not_lt fun hlt => hsize ⟨htr, hlt⟩
      rw [slice_eq_of_agree h (by omega), fromBe32_eq_of_agree h (by omega)]
    next => rfl

/-- The header and CRC1 are read only when the input has room for them (R232, R238). -/
theorem decodeRest_eq_of_agree (crc1 crc2 : List Byte → Word) (len : BitVec 15) (w : Nat) :
    decodeRest crc1 crc2 n g len w = decodeRest crc1 crc2 n f len w := by
  simp only [decodeRest, decodeBody_eq_of_agree h]
  split
  next => rfl
  next hroom =>
    have hlen : headerLength w = 6 + w := rfl
    rw [h 0 (by omega), h (1 + w) (by omega), slice_eq_of_agree h (by omega),
      fromBe32_eq_of_agree h (a := 2 + w) (by omega), fromBe32_eq_of_agree h (a := headerLength w) (by omega)]

theorem decodeFrame_eq_of_agree (crc1 crc2 : List Byte → Word) :
    decodeFrame crc1 crc2 n g = decodeFrame crc1 crc2 n f := by
  by_cases hn : n < Config.minHdr
  · simp only [decodeFrame, if_pos hn]
  · have hmin : Config.minHdr = 7 := rfl
    simp only [decodeFrame, h 0 (by omega), slice_eq_of_agree h (show 1 + (n - 1) ≤ n by omega),
      decodeRest_eq_of_agree h]

end

/-! ### The two states -/

/-- Two states with the same banks and build whose buffer memories agree on `[base, base + n)`. -/
structure AgreeOn (base n : Nat) (s s' : State) : Prop where
  bank_eq : ∀ k, s'.bank k = s.bank k
  build : SameBuild s s'
  byte_eq : ∀ j, j < n → s'.bmByte (base + j) = s.bmByte (base + j)

/-- Two states with the same response and the same banks. -/
def SameAnswer (t t' : State) : Prop := t'.rsp = t.rsp ∧ ∀ k, t'.bank k = t.bank k

section

variable {s s' : State} {base n : Nat} (h : AgreeOn base n s s')
include h

theorem AgreeOn.params_eq : s'.params = s.params := by
  obtain ⟨hparams, _, _⟩ := h.build
  exact hparams

theorem AgreeOn.plByte_eq (k : BankId) : s'.plByte k = s.plByte k := by
  obtain ⟨_, _, hresets⟩ := h.build
  exact State.plByte_congr k s s' (by rw [h.bank_eq]) hresets

theorem AgreeOn.plRead_eq (k : BankId) (m : Nat) : s'.plRead k m = s.plRead k m := by
  simp only [State.plRead, h.plByte_eq]

theorem AgreeOn.frame_eq (k : BankId) : s'.frame k = s.frame k :=
  State.frame_congr h.params_eq (by rw [h.bank_eq]) (by rw [h.bank_eq]) fun i _ => by rw [h.plByte_eq]

theorem AgreeOn.inRange_eq (b : Half) (m : Nat) : s'.inRange b m = s.inRange b m := by
  simp only [State.inRange, h.params_eq]

theorem AgreeOn.crc_eq (e : Engine) : s'.crc e = s.crc e := by
  funext bytes
  simp only [State.crc, h.params_eq]

theorem AgreeOn.memRead_eq : s'.memRead base n = s.memRead base n := slice_congr h.byte_eq

/-- The decoder's input is the declared range (R230, R232). -/
theorem AgreeOn.decodeFrame_eq (crc1 crc2 : List Byte → Word) :
    decodeFrame crc1 crc2 n (fun i => s'.bmByte (base + i)) =
      decodeFrame crc1 crc2 n (fun i => s.bmByte (base + i)) :=
  decodeFrame_eq_of_agree h.byte_eq crc1 crc2

/-! ### One rule for each way to end -/

theorem AgreeOn.raise (kind : Status) : SameAnswer (s.raise kind) (s'.raise kind) :=
  ⟨rfl, fun k => by simpa using h.bank_eq k⟩

theorem AgreeOn.ok (r0 : Word) (r1 : Nat) : SameAnswer (s.ok r0 r1) (s'.ok r0 r1) :=
  ⟨rfl, fun k => by simpa using h.bank_eq k⟩

theorem AgreeOn.memWrite_ok (a : Nat) (bytes : List Byte) (r0 : Word) (r1 : Nat) :
    SameAnswer ((s.memWrite a bytes).ok r0 r1) ((s'.memWrite a bytes).ok r0 r1) :=
  ⟨rfl, fun k => by simpa using h.bank_eq k⟩

theorem AgreeOn.setBank_ok (k : BankId) (b : Bank) (r0 : Word) (r1 : Nat) :
    SameAnswer ((s.setBank k b).ok r0 r1) ((s'.setBank k b).ok r0 r1) :=
  ⟨rfl, fun j => by simp only [State.bank_ok, State.bank_setBank, h.bank_eq]⟩

end

/-- A check that goes the same way in both states. -/
theorem SameAnswer.check {p : Prop} [Decidable p] {t t' u u' : State} (ht : SameAnswer t t') (hu : SameAnswer u u') :
    SameAnswer (if p then t else u) (if p then t' else u') := by
  split
  next => exact ht
  next => exact hu

/-! ### Every instruction -/

/-- An instruction gives the same response and the same banks from two states that agree on what it may read. -/
theorem AgreeOn.after_exec {s s' : State} (i : Instr) (h : AgreeOn (readRange i).1 (readRange i).2 s s') :
    ∃ t t', exec i s = .next t ∧ exec i s' = .next t' ∧ SameAnswer t t' := by
  cases i with
  | vpredict value =>
    refine ⟨_, _, rfl, rfl, ?_⟩
    split
    next => exact h.raise _
    next => exact h.ok _ _
  | vencode value base cap =>
    refine ⟨_, _, rfl, rfl, ?_⟩
    rw [h.inRange_eq]
    refine .check (h.raise _) ?_
    split
    next => exact h.raise _
    next => exact .check (h.raise _) (h.memWrite_ok _ _ _ _)
  | vdecode base avail =>
    replace h : AgreeOn base.toNat avail.toNat s s' := h
    refine ⟨_, _, rfl, rfl, ?_⟩
    rw [h.inRange_eq, h.memRead_eq]
    refine .check (h.raise _) ?_
    split
    next => exact h.raise _
    next => exact h.ok _ _
  | crc32 e base len =>
    replace h : AgreeOn base.toNat len.toNat s s' := h
    refine ⟨_, _, rfl, rfl, ?_⟩
    rw [h.inRange_eq, h.crc_eq, h.memRead_eq]
    exact .check (h.raise _) (h.ok _ _)
  | settype | settr | setwin =>
    refine ⟨_, _, rfl, rfl, ?_⟩
    rw [h.bank_eq]
    exact .check (h.raise _) (h.setBank_ok _ _ _ _)
  | setlen k len =>
    refine ⟨_, _, rfl, rfl, .check (h.raise _) ?_⟩
    rw [h.bank_eq]
    split
    next => exact h.raise _
    next => exact h.setBank_ok _ _ _ _
  | pclear | setseq | setts | setcrc1 | setcrc2 =>
    refine ⟨_, _, rfl, rfl, ?_⟩
    rw [h.bank_eq]
    exact h.setBank_ok _ _ _ _
  | setpay k base len =>
    replace h : AgreeOn base.toNat len.toNat s s' := h
    refine ⟨_, _, exec_setpay_eq s k base len, exec_setpay_eq s' k base len, ?_⟩
    rw [h.params_eq, h.bank_eq, h.memRead_eq]
    exact .check (h.raise _) (.check (h.raise _) (h.setBank_ok _ _ _ _))
  | gettype | gettr | getwin | getlen | getseq | getts | getcrc1 | getcrc2 =>
    refine ⟨_, _, rfl, rfl, ?_⟩
    rw [h.bank_eq]
    exact h.ok _ _
  | getpay k base =>
    refine ⟨_, _, exec_getpay_eq s k base, exec_getpay_eq s' k base, ?_⟩
    rw [h.params_eq, h.bank_eq, h.plRead_eq]
    exact .check (h.raise _) (.check (h.ok _ _) (h.memWrite_ok _ _ _ _))
  | penc k base cap =>
    refine ⟨_, _, exec_penc_eq s k base cap, exec_penc_eq s' k base cap, ?_⟩
    rw [h.params_eq, h.bank_eq, h.frame_eq]
    exact .check (h.raise _) (.check (h.raise _) (.check (h.raise _) (h.memWrite_ok _ _ _ _)))
  | pdec k base len =>
    replace h : AgreeOn base.toNat len.toNat s s' := h
    refine ⟨_, _, rfl, rfl, ?_⟩
    rw [h.inRange_eq, h.crc_eq, h.crc_eq, h.bank_eq, h.decodeFrame_eq]
    refine .check (h.raise _) ?_
    split
    next => exact h.raise _
    next => exact h.setBank_ok _ _ _ _
  | bmwr addr byte =>
    refine ⟨_, _, exec_bmwr_eq s addr byte, exec_bmwr_eq s' addr byte, ?_⟩
    rw [h.params_eq]
    exact .check (h.raise _) (h.memWrite_ok _ _ _ _)
  | bmrd addr =>
    have hbyte : s'.bmByte addr.toNat = s.bmByte addr.toNat := h.byte_eq 0 Nat.one_pos
    refine ⟨_, _, exec_bmrd_eq s addr, exec_bmrd_eq s' addr, ?_⟩
    rw [h.params_eq, hbyte]
    exact .check (h.raise _) (h.ok _ _)
  | wireVarint1 | wireVarint2 | wireByte0 => exact ⟨_, _, rfl, rfl, h.raise _⟩

/-- Settles O24. -/
theorem onlyTheDeclaredRangeIsRead : Obligations.OnlyTheDeclaredRangeIsRead := by
  intro i s s' hbank hbuild hbyte t t' ht ht'
  obtain ⟨u, u', hu, hu', hsame⟩ := AgreeOn.after_exec i ⟨hbank, hbuild, hbyte⟩
  obtain rfl : t = u := Host.Outcome.next.inj (ht.symm.trans hu)
  obtain rfl : t' = u' := Host.Outcome.next.inj (ht'.symm.trans hu')
  exact hsame

end Sys2Proof.Machine
end

section
/-! SUPPORT. The wire forms as the decoder of the table rows reads them: byte 0 by its fields (R97), the length field by
its first byte (R101 to R104), beside what the varint codec writes and reads. -/

namespace Sys2Proof

open Machine

/-! ### Byte 0 -/

/-- Byte 0 taken apart gives the fields it was put together from (R97). -/
theorem decode_encode_wireByte0 (t : BitVec 2) (r : BitVec 1) (w : BitVec 5) :
    decode (encode (.wireByte0 t r w)) = .ok (.wireByte0 t r w) := by
  revert t r w
  decide

/-- The mask `0xDF` keeps type and window and clears the truncated bit (R97). -/
theorem maskTr_eq_byte0 (x : Byte) : maskTr x = byte0 (byte0Type x) 0 (byte0Win x) := by
  revert x
  decide

/-- Settles O6. -/
theorem byte0PacksItsFields : Obligations.Byte0PacksItsFields :=
  ⟨fun t r w => ⟨congrArg CodeWord.frameStart (byte0_or t r w), byte0_or t r w⟩,
    fun x => ⟨byte0Type_toNat x, byte0Tr_toNat x, byte0Win_toNat x, rfl, maskTr_eq_byte0 x⟩⟩

/-! ### The length field by its first byte (R103) -/

@[simp] theorem decode_lengthField (bytes : List Byte) : decode (.lengthField bytes) = decodeLength bytes := rfl

theorem decodeLength_one {x : Byte} (rest : List Byte) (h : x.toNat < 128) :
    decodeLength (x :: rest) = .ok (.wireVarint1 (x.extractLsb' 0 7)) :=
  if_pos ((flag_eq_zero_iff x).2 h)

theorem decodeLength_short {x : Byte} (h : 128 ≤ x.toNat) : decodeLength [x] = .error .truncatedVarint :=
  if_neg (mt (flag_eq_zero_iff x).1 h.not_gt)

theorem decodeLength_two {x : Byte} (y : Byte) (rest : List Byte) (h : 128 ≤ x.toNat) :
    decodeLength (x :: y :: rest) = .ok (.wireVarint2 (x.extractLsb' 0 7 ++ y)) :=
  if_neg (mt (flag_eq_zero_iff x).1 h.not_gt)

/-! ### The bytes of the two forms -/

/-- The byte of a 1-byte form is its value (R101). -/
theorem one_byte_toNat (v : BitVec 7) : (0#1 ++ v : Byte).toNat = v.toNat := by
  revert v
  decide

/-- A byte below 128 is its low seven bits. -/
theorem low_seven_setWidth {x : Byte} (h : x.toNat < 128) : (x.extractLsb' 0 7).setWidth 15 = x.setWidth 15 := by
  revert x
  decide

theorem decode_encode_wireVarint1 (v : BitVec 7) : decode (encode (.wireVarint1 v)) = .ok (.wireVarint1 v) := by
  have hx : (0#1 ++ v : Byte).toNat < 128 := one_byte_toNat v ▸ v.isLt
  have hv : (0#1 ++ v : Byte).extractLsb' 0 7 = v := BitVec.extractLsb'_append_eq_right
  simp only [encode, decode_lengthField, decodeLength_one [] hx, hv]

theorem decode_encode_wireVarint2 (v : BitVec 15) : decode (encode (.wireVarint2 v)) = .ok (.wireVarint2 v) := by
  have hx : 128 ≤ (1#1 ++ v.extractLsb' 8 7 : Byte).toNat := two_byte_first v ▸ Nat.le_add_right 128 _
  have hv : (1#1 ++ v.extractLsb' 8 7 : Byte).extractLsb' 0 7 ++ v.extractLsb' 0 8 = v := by
    apply BitVec.eq_of_toNat_eq
    rw [two_byte_value, two_byte_first, BitVec.extractLsb'_toNat]
    omega
  simp only [encode, decode_lengthField, decodeLength_two _ [] hx, hv]

/-! ### The codec -/

/-- What the codec writes for a value below 128 is the 1-byte form (R101). -/
theorem venc_of_seven_bits (v : BitVec 7) : venc (v.setWidth 15) = [0#1 ++ v] := by
  have hsmall : (v.setWidth 15).toNat ≤ 127 := by simp; omega
  have hbyte : (v.setWidth 15).extractLsb' 0 8 = 0#1 ++ v := by
    revert v
    decide
  rw [venc_one hsmall, hbyte]

/-- The codec and the decoder of the table rows tell the forms apart alike, non-canonical pairs included (R103,
R104). -/
theorem vdec_eq_some_iff_decode (bytes : List Byte) (v : BitVec 15) (w : Nat) : vdec bytes = some (v, w) ↔
    (w = 1 ∧ ∃ u : BitVec 7, decode (.lengthField bytes) = .ok (.wireVarint1 u) ∧ v = u.setWidth 15) ∨
    (w = 2 ∧ decode (.lengthField bytes) = .ok (.wireVarint2 v)) := by
  match bytes with
  | [] => simp [vdec_nil, decodeLength]
  | x :: rest =>
    by_cases hx : x.toNat < 128
    · simp [vdec_one rest hx, decodeLength_one rest hx, low_seven_setWidth hx, eq_comm, and_comm]
    · match rest with
      | [] => simp [vdec_short (Nat.le_of_not_lt hx), decodeLength_short (Nat.le_of_not_lt hx)]
      | y :: rest =>
        simp [vdec_two y rest (Nat.le_of_not_lt hx), decodeLength_two y rest (Nat.le_of_not_lt hx), eq_comm, and_comm]

/-- Settles O7. -/
theorem varintRowsAreTheCodec : Obligations.VarintRowsAreTheCodec :=
  ⟨fun v => congrArg CodeWord.lengthField (venc_of_seven_bits v).symm,
    fun _ h => congrArg CodeWord.lengthField (venc_two h).symm,
    vdec_eq_some_iff_decode⟩

end Sys2Proof
end

section
/-! SUPPORT. The two directions between instructions and code words, and the opcode map beside the rows of the opcode
table (R92 to R94, R113, R114). -/

namespace Sys2Proof

open Machine

/-! ### From the instruction to the code word and back -/

/-- Settles O1: an operation's word decodes to it, and so do the bytes of a wire form. -/
theorem decodeInvertsEncode : Obligations.DecodeInvertsEncode := by
  intro i
  cases i with
  | wireVarint1 v => exact decode_encode_wireVarint1 v
  | wireVarint2 v => exact decode_encode_wireVarint2 v
  | wireByte0 t r w => exact decode_encode_wireByte0 t r w
  | _ => exact decode_of_encode_eq_command rfl

/-- Settles O4: each word is the encoding of its instruction. -/
theorem workedCommandWordsDecode : Obligations.WorkedCommandWordsDecode := by
  refine ⟨?_, ?_, ?_, ?_, ?_, ?_, ?_, ?_, ?_, ?_⟩
  all_goals exact decode_of_encode_eq_command (by decide)

/-! ### The opcode map -/

/-- The opcodes of the 27 operations (R93). -/
def opcodes : List (BitVec 8) :=
  [0x01, 0x02, 0x03, 0x08, 0x10, 0x11, 0x12, 0x13, 0x14, 0x15, 0x16, 0x17, 0x18, 0x19, 0x21, 0x22, 0x23, 0x24, 0x25,
    0x26, 0x27, 0x28, 0x29, 0x30, 0x31, 0x40, 0x41]

/-- The opcode map is defined exactly on these. -/
theorem operation_isSome_iff (op : BitVec 8) : (operation op).isSome = true ↔ op ∈ opcodes := by
  revert op
  decide

theorem mem_opcodes_of_operation {op : BitVec 8} {fmt : Format} {build : CmdFields → Instr}
    (ho : operation op = some (fmt, build)) : op ∈ opcodes :=
  (operation_isSome_iff op).1 (by rw [ho, Option.isSome_some])

/-- An instruction built from fields with no stray bit has these fields in its encoding: the operands hold all the bits
that the format uses, and the others are zero (R92, R115). -/
theorem encode_of_operation {f : CmdFields} {fmt : Format} {build : CmdFields → Instr}
    (ho : operation f.op = some (fmt, build)) (hs : fmt.stray f = false) :
    encode (build f) = command f.op f.k f.b f.a := by
  obtain ⟨op, z, k, b, a⟩ := f
  have hop : op ∈ opcodes := mem_opcodes_of_operation ho
  fin_cases hop
  all_goals
    cases ho
    simp [Format.stray, Format.usesK, Format.usesB, Format.aBits] at hs
    simp [encode, CmdFields.al, CmdFields.ah, CmdFields.a8, BankId.bit_ofBit, Engine.bit_ofBit, append_low_half,
      append_low_byte, append_halves, hs]

/-- Settles O2: the word is built again from its own fields. -/
theorem encodeInvertsDecodeOfCommands : Obligations.EncodeInvertsDecodeOfCommands := by
  intro w i hd
  obtain ⟨fmt, build, ho, hz, hs, rfl⟩ := decodeCommand_eq_ok hd
  calc encode (build (CmdFields.ofCmd w))
      = .command (CmdFields.toCmd { CmdFields.ofCmd w with z := 0 }) := encode_of_operation ho hs
    _ = .command (CmdFields.ofCmd w).toCmd := by rw [← hz]
    _ = .command w := by rw [CmdFields.toCmd_ofCmd]

/-! ### The rows of the opcode table -/

/-- Every row of the table is a row of the opcode map: its opcode builds instructions of its mnemonic (R93). -/
theorem operation_of_mem_commandRows {r : Row} (hr : r ∈ commandRows) :
    ∃ op fmt build, r = Row.of r.mnemonic op fmt ∧ operation op = some (fmt, build) ∧
      ∀ f, (build f).mnemonic = r.mnemonic := by
  fin_cases hr
  all_goals exact ⟨_, _, _, rfl, rfl, fun _ => rfl⟩

/-- Every entry of the opcode map has its row in the table (R93). -/
theorem row_mem_of_operation {op : BitVec 8} {fmt : Format} {build : CmdFields → Instr}
    (ho : operation op = some (fmt, build)) (f : CmdFields) : Row.of (build f).mnemonic op fmt ∈ commandRows := by
  have hop : op ∈ opcodes := mem_opcodes_of_operation ho
  fin_cases hop
  all_goals
    cases ho
    simp [commandRows, Instr.mnemonic]

/-- A word that a row selects passes the decoder's checks (R92, R94). -/
theorem decode_of_selects {r : Row} (hr : r ∈ commandRows) {w : Cmd} (hw : r.selects w = true) :
    ∃ i, decode (.command w) = .ok i ∧ i.mnemonic = r.mnemonic := by
  obtain ⟨op, fmt, build, hrow, ho, hm⟩ := operation_of_mem_commandRows hr
  rw [hrow, Row.selects_of_iff] at hw
  obtain ⟨rfl, hz, hs⟩ := hw
  exact ⟨_, CmdFields.toCmd_ofCmd w ▸ decodeCommand_toCmd ho hz hs, hm _⟩

/-- At most one row selects a word: the word's opcode has one entry in the opcode map, and with it one format and one
mnemonic (R93). -/
theorem row_eq_of_selects {r q : Row} (hr : r ∈ commandRows) (hq : q ∈ commandRows) {w : Cmd}
    (hrw : r.selects w = true) (hqw : q.selects w = true) : r = q := by
  obtain ⟨op, fmt, build, hrow, ho, hm⟩ := operation_of_mem_commandRows hr
  obtain ⟨op', fmt', build', hrow', ho', hm'⟩ := operation_of_mem_commandRows hq
  rw [hrow, Row.selects_of_iff] at hrw
  rw [hrow', Row.selects_of_iff] at hqw
  obtain ⟨rfl, _, _⟩ := hrw
  obtain ⟨rfl, _, _⟩ := hqw
  obtain ⟨rfl, rfl⟩ := Prod.mk.inj (Option.some.inj (ho.symm.trans ho'))
  have hmnemonic : r.mnemonic = q.mnemonic := (hm (CmdFields.ofCmd w)).symm.trans (hm' _)
  rw [hrow, hrow', hmnemonic]

/-- A word that decodes is selected by the row of what it decodes to. -/
theorem selects_of_decode {w : Cmd} {i : Instr} (hd : decode (.command w) = .ok i) :
    ∃ r ∈ commandRows, r.mnemonic = i.mnemonic ∧ r.selects w = true := by
  obtain ⟨fmt, build, ho, hz, hs, rfl⟩ := decodeCommand_eq_ok hd
  exact ⟨_, row_mem_of_operation ho _, rfl, (Row.selects_of_iff _ _ _ _).2 ⟨rfl, hz, hs⟩⟩

/-- Settles O3. -/
theorem commandSelectedByMaskAndMatch : Obligations.CommandSelectedByMaskAndMatch := by
  intro w
  refine ⟨fun r hr => decode_of_selects hr, fun r hr q hq => row_eq_of_selects hr hq, fun hnone i hd => ?_⟩
  obtain ⟨r, hr, _, hw⟩ := selects_of_decode hd
  exact Bool.false_ne_true ((hnone r hr).symm.trans hw)

/-! ### Reserved words -/

/-- An opcode in one of the reserved ranges (R113). -/
abbrev ReservedOpcode (op : Nat) : Prop :=
  op = 0x00 ∨ (0x04 ≤ op ∧ op ≤ 0x07) ∨ (0x09 ≤ op ∧ op ≤ 0x0F) ∨ (0x1A ≤ op ∧ op ≤ 0x20) ∨
    (0x2A ≤ op ∧ op ≤ 0x2F) ∨ (0x32 ≤ op ∧ op ≤ 0x3F) ∨ (0x42 ≤ op ∧ op ≤ 0xFF)

theorem not_reservedOpcode_of_mem_opcodes : ∀ op ∈ opcodes, ¬ReservedOpcode op.toNat := by decide

/-- The opcode as a number (R90). -/
theorem CmdFields.ofCmd_op_toNat (w : Cmd) : (CmdFields.ofCmd w).op.toNat = w.toNat / 2 ^ 56 := by
  simp only [CmdFields.ofCmd, BitVec.extractLsb'_toNat, Nat.shiftRight_eq_div_pow]
  omega

/-- The field `z` as a number (R90). -/
theorem CmdFields.ofCmd_z_toNat (w : Cmd) : (CmdFields.ofCmd w).z.toNat = w.toNat / 2 ^ 49 % 2 ^ 7 := by
  simp only [CmdFields.ofCmd, BitVec.extractLsb'_toNat, Nat.shiftRight_eq_div_pow]

theorem decode_ne_ok_of_reservedOpcode {w : Cmd} (h : ReservedOpcode (w.toNat / 2 ^ 56)) (i : Instr) :
    decode (.command w) ≠ .ok i := by
  intro hd
  obtain ⟨_, _, ho, _⟩ := decodeCommand_eq_ok hd
  rw [← CmdFields.ofCmd_op_toNat] at h
  exact not_reservedOpcode_of_mem_opcodes _ (mem_opcodes_of_operation ho) h

theorem decode_ne_ok_of_z_ne_zero {w : Cmd} (h : w.toNat / 2 ^ 49 % 2 ^ 7 ≠ 0) (i : Instr) :
    decode (.command w) ≠ .ok i := by
  intro hd
  obtain ⟨_, _, _, hz, _⟩ := decodeCommand_eq_ok hd
  exact h (by rw [← CmdFields.ofCmd_z_toNat, hz]; rfl)

/-- Settles O5: the all-zero and the all-ones word have the reserved opcodes 0x00 and 0xFF. -/
theorem reservedWordsAreNoOperation : Obligations.ReservedWordsAreNoOperation :=
  ⟨fun _ _ hop h => decode_ne_ok_of_reservedOpcode (hop ▸ h), decode_ne_ok_of_reservedOpcode (by decide),
    decode_ne_ok_of_reservedOpcode (by decide), fun _ h => decode_ne_ok_of_z_ne_zero h⟩

end Sys2Proof

namespace Sys2Proof.Machine

/-! ### Words that are no operation, run -/

/-- `raise` changes nothing but the response (R36, R292). -/
theorem State.fails_raise (s : State) (kind : Status) : Fails s (s.raise kind) kind :=
  ⟨⟨rfl, rfl, rfl, rfl⟩, fun k => s.bank_raise k kind, fun _ => rfl, rfl, rfl, rfl⟩

/-- Settles O10: a word that decodes to nothing ends in `raise IllegalCommand`. -/
theorem noOperationGivesIllegalCommand : Obligations.NoOperationGivesIllegalCommand := by
  intro s w rest hin hnone
  cases hd : decode (.command w) with
  | ok i => exact absurd hd (hnone i)
  | error e =>
    have hstep := (step_of_command hin).trans (runCommand_of_decode_error hd s.dropInput)
    rw [State.dropInput_of_cons hin] at hstep
    exact ⟨_, hstep, rfl, State.fails_raise _ _⟩

/-- Settles O13: the arm of each wire row is `raise IllegalCommand`. -/
theorem wireRowsAreNoOperation : Obligations.WireRowsAreNoOperation :=
  ⟨fun _ s => ⟨_, rfl, s.fails_raise _⟩, fun _ s => ⟨_, rfl, s.fails_raise _⟩,
    fun _ _ _ s => ⟨_, rfl, s.fails_raise _⟩⟩

end Sys2Proof.Machine
end

section
/-! SUPPORT. The laws of the varint functions (R137, R138): a decoding inverts the encoding, depends on nothing
beyond the bytes it consumes, and is inverted by the encoding exactly on canonical forms. -/

namespace Sys2Proof.Machine

/-! ### The bytes of the two forms -/

theorem low_byte_toNat {w : Nat} (v : BitVec w) : (v.extractLsb' 0 8).toNat = v.toNat % 256 := by
  rw [BitVec.extractLsb'_toNat, Nat.shiftRight_zero]

/-- The low byte of a value below 128 has its flag bit clear (R101). -/
theorem low_byte_lt {v : BitVec 15} (h : v.toNat ≤ 127) : (v.extractLsb' 0 8).toNat < 128 := by
  rw [low_byte_toNat]
  omega

/-- The first byte of a 2-byte form has its flag bit set (R102). -/
theorem le_two_byte_first (v : BitVec 15) : 128 ≤ (1#1 ++ v.extractLsb' 8 7 : Byte).toNat :=
  two_byte_first v ▸ Nat.le_add_right 128 _

/-- A byte below 128 is the encoding of its own value (R101). -/
theorem venc_setWidth_byte {x : Byte} (h : x.toNat < 128) : venc (x.setWidth 15) = [x] := by
  have hv : (x.setWidth 15).toNat = x.toNat := by
    rw [BitVec.toNat_setWidth]
    omega
  rw [venc_one (by omega), List.cons.injEq, ← BitVec.toNat_inj, low_byte_toNat, hv]
  exact ⟨by omega, rfl⟩

/-- A canonical 2-byte form is what the encoder writes for its value (R102). -/
theorem venc_two_byte {x y : Byte} (hx : 128 ≤ x.toNat) (hv : 128 ≤ (x.extractLsb' 0 7 ++ y).toNat) :
    venc (x.extractLsb' 0 7 ++ y) = [x, y] := by
  rw [venc_two hv, List.cons.injEq, List.cons.injEq, ← BitVec.toNat_inj, ← BitVec.toNat_inj, two_byte_first,
    low_byte_toNat, two_byte_value]
  exact ⟨by omega, by omega, rfl⟩

/-- A 2-byte form carries a value below 128 exactly when it is `0x80` and a byte up to 127 (R104). -/
theorem two_byte_value_lt_iff {x y : Byte} (hx : 128 ≤ x.toNat) :
    (x.extractLsb' 0 7 ++ y).toNat < 128 ↔ x = 0x80 ∧ y.toNat ≤ 0x7F := by
  rw [two_byte_value, ← BitVec.toNat_inj, show (0x80 : Byte).toNat = 128 from rfl]
  omega

/-! ### The round trip -/

/-- Decoding inverts encoding (R137). -/
theorem vdec_venc (v : BitVec 15) : vdec (venc v) = some (v, (venc v).length) := by
  by_cases h : v.toNat ≤ 127
  · have hv : (v.extractLsb' 0 8).setWidth 15 = v := by
      rw [← BitVec.toNat_inj, BitVec.toNat_setWidth, low_byte_toNat]
      omega
    rw [venc_one h, vdec_one [] (low_byte_lt h), hv, List.length_singleton]
  · rw [venc_two (by omega), vdec_eq_some_iff_decode]
    exact .inr ⟨rfl, decode_encode_wireVarint2 v⟩

/-- The decoder looks at no byte beyond those it consumes (R138 (c)). -/
theorem vdec_append {bytes : List Byte} {v : BitVec 15} {w : Nat} (h : vdec bytes = some (v, w)) (more : List Byte) :
    vdec (bytes ++ more) = some (v, w) := by
  obtain ⟨x, rest, rfl, hx, rfl, rfl⟩ | ⟨x, y, rest, rfl, hx, rfl, rfl⟩ := vdec_eq_some h
  · exact vdec_one _ hx
  · exact vdec_two y _ hx

/-- The encoder gives two values the same bytes only if they are equal, since the decoder tells them apart
(R138 (a)). -/
theorem venc_injective {u v : BitVec 15} (h : venc u = venc v) : u = v := by
  have hdec := vdec_venc u
  rw [h, vdec_venc, Option.some.injEq, Prod.mk.injEq] at hdec
  exact hdec.1.symm

/-- Encoding a decoded value gives the consumed bytes back unless they were a 2-byte form of a value below 128
(R138 (b)). -/
theorem venc_eq_take_iff {bytes : List Byte} {v : BitVec 15} {w : Nat} (h : vdec bytes = some (v, w)) :
    venc v = bytes.take w ↔ ¬∃ y rest, y.toNat ≤ 0x7F ∧ bytes = 0x80 :: y :: rest := by
  obtain ⟨x, rest, rfl, hx, rfl, rfl⟩ | ⟨x, y, rest, rfl, hx, rfl, rfl⟩ := vdec_eq_some h
  · refine iff_of_true (venc_setWidth_byte hx) ?_
    rintro ⟨y, rest', _, heq⟩
    obtain ⟨rfl, _⟩ := List.cons.inj heq
    exact absurd hx (by decide)
  · have hcanonical : venc (x.extractLsb' 0 7 ++ y) = [x, y] ↔ ¬(x.extractLsb' 0 7 ++ y).toNat < 128 := by
      refine ⟨fun heq hlt => ?_, fun hlt => venc_two_byte hx (Nat.le_of_not_lt hlt)⟩
      have hlen := congrArg List.length heq
      rw [venc_length, if_pos (Nat.le_of_lt_succ hlt)] at hlen
      exact absurd hlen.symm (Nat.succ_ne_self 1)
    refine hcanonical.trans (not_congr ((two_byte_value_lt_iff hx).trans ?_))
    refine ⟨fun ⟨hx80, hy⟩ => ⟨y, rest, hy, hx80 ▸ rfl⟩, fun ⟨_, _, hy, heq⟩ => ?_⟩
    obtain ⟨hx80, htail⟩ := List.cons.inj heq
    obtain ⟨rfl, _⟩ := List.cons.inj htail
    exact ⟨hx80, hy⟩

/-- The first byte of an encoding tells its form (R138 (f)). -/
theorem venc_first_lt_iff {v : BitVec 15} {x : Byte} {rest : List Byte} (h : venc v = x :: rest) :
    x.toNat < 0x80 ↔ v.toNat ≤ 127 := by
  by_cases hv : v.toNat ≤ 127
  · rw [venc_one hv] at h
    obtain ⟨rfl, _⟩ := List.cons.inj h
    exact iff_of_true (low_byte_lt hv) hv
  · rw [venc_two (by omega)] at h
    obtain ⟨rfl, _⟩ := List.cons.inj h
    exact iff_of_false (le_two_byte_first v).not_gt hv

/-- Every stored length is representable, in as many bytes as its encoding has (R138 (e)). -/
theorem vpredict_setWidth_eq_length (v : BitVec 15) : vpredict (v.setWidth 16) = some (venc v).length := by
  rw [vpredict_setWidth, venc_length]

/-- Settles O31, fact by fact. -/
theorem varintLaws : Obligations.VarintLaws := by
  refine ⟨fun _ _ => venc_injective, fun x hx => ⟨vdec_one [] (Nat.lt_succ_of_le hx), ?_⟩, fun bytes v w h => ?_,
    vpredict_setWidth_eq_length, fun _ _ _ => venc_first_lt_iff⟩
  · have hv : (0x80#8).extractLsb' 0 7 ++ x = x.setWidth 15 := by
      revert x
      decide
    exact hv ▸ vdec_two x [] (by decide)
  · exact ⟨venc_eq_take_iff h, vdec_append h, by simp [vpredict_setWidth_eq_length]⟩

end Sys2Proof.Machine
end

section
/-! SUPPORT. The operations of the varint codec as chains of checks (R131, R132, R135), and what they say of the bytes
written and read. -/

namespace Sys2Proof

/-- The encoding of an instruction has its opcode's format: the word decodes, so it has no bit outside the format
that the opcode map gives (R92, R94). -/
theorem Instr.hasEncoding_of_operation {i : Instr} {op : BitVec 8} {k : BitVec 1} {b : BitVec 16} {a : BitVec 32}
    {fmt : Format} {build : CmdFields → Instr} {operands : CmdFields → Prop} (he : encode i = command op k b a)
    (ho : operation op = some (fmt, build)) (hp : operands { op := op, z := 0, k := k, b := b, a := a }) :
    i.HasEncoding op fmt operands := by
  have hdec : decode (encode i) = .ok i := decodeInvertsEncode i
  rw [he] at hdec
  obtain ⟨_, _, ho', _, hs, _⟩ := decodeCommand_eq_ok hdec
  rw [CmdFields.ofCmd_toCmd] at ho' hs
  obtain ⟨rfl, _⟩ := Prod.mk.inj (Option.some.inj (ho.symm.trans ho'))
  exact ⟨_, he, rfl, rfl, hs, hp⟩

end Sys2Proof

namespace Sys2Proof.Machine

/-! ### The operations -/

/-- The width of an operand's varint, where it has one (R130). -/
theorem vpredict_eq_lengthWidth (v : Half) :
    vpredict v = if 32767 < v.toNat then none else some (lengthWidth v.toNat) := by
  by_cases h : 32767 < v.toNat
  · rw [vpredict_none (by omega), if_pos h]
  · rw [vpredict_eq, if_pos (Nat.le_of_not_lt h), if_neg h, lengthWidth, apply_ite some]

theorem exec_vpredict_eq (s : State) (value : Half) : exec (.vpredict value) s = .next (
    if 32767 < value.toNat then s.raise .invalidLength else s.ok 0 (lengthWidth value.toNat)) := by
  simp only [exec, execVpredict, vpredict_eq_lengthWidth]
  by_cases hv : 32767 < value.toNat
  · simp only [if_pos hv]
  · simp only [if_neg hv]

theorem exec_vencode_eq (s : State) (value base cap : Half) : exec (.vencode value base cap) s = .next (
    if ¬base.toNat + cap.toNat ≤ s.params.bmSize then s.raise .addressError
    else if 32767 < value.toNat then s.raise .invalidLength
    else if cap.toNat < lengthWidth value.toNat then s.raise .bufferTooSmall
    else (s.memWrite base.toNat (venc (narrowLen value))).ok 0 (lengthWidth value.toNat)) := by
  simp only [exec, execVencode, vpredict_eq_lengthWidth, Bool.not_eq_true', ← Bool.not_eq_true, State.inRange_iff]
  by_cases hv : 32767 < value.toNat
  · simp only [if_pos hv]
  · simp only [if_neg hv]

section

variable {s : State} {base avail : Half}

theorem exec_vdecode_of_outside (h : s.params.bmSize < base.toNat + avail.toNat) :
    exec (.vdecode base avail) s = .next (s.raise .addressError) := by
  simp [exec, execVdecode, State.inRange, h]

theorem exec_vdecode_of_none (h : base.toNat + avail.toNat ≤ s.params.bmSize)
    (hdec : vdec (s.memRead base.toNat avail.toNat) = none) :
    exec (.vdecode base avail) s = .next (s.raise .headerTooShort) := by
  simp [exec, execVdecode, State.inRange, h, hdec]

theorem exec_vdecode_of_some (h : base.toNat + avail.toNat ≤ s.params.bmSize) {v : BitVec 15} {w : Nat}
    (hdec : vdec (s.memRead base.toNat avail.toNat) = some (v, w)) :
    exec (.vdecode base avail) s = .next (s.ok (resultOf v) w) := by
  simp [exec, execVdecode, State.inRange, h, hdec]

end

/-! ### The bytes written -/

theorem lengthWidth_le_two (n : Nat) : lengthWidth n ≤ 2 := by
  rw [lengthWidth]
  split <;> decide

/-- A representable value fits the 15 bits it is kept in (R130). -/
theorem narrowLen_toNat_of_le {value : Half} (h : value.toNat ≤ 32767) : (narrowLen value).toNat = value.toNat := by
  rw [narrowLen, BitVec.extractLsb'_toNat, Nat.shiftRight_zero]
  omega

theorem venc_narrowLen_length {value : Half} (h : value.toNat ≤ 32767) :
    (venc (narrowLen value)).length = lengthWidth value.toNat := by
  rw [venc_length, narrowLen_toNat_of_le h, lengthWidth]

/-- The 1-byte form of an operand (R101). -/
theorem venc_narrowLen_one {value : Half} (h : value.toNat ≤ 127) : venc (narrowLen value) = [value.setWidth 8] := by
  have hv := narrowLen_toNat_of_le (value := value) (by omega)
  rw [venc_one (by omega), List.cons.injEq, ← BitVec.toNat_inj, low_byte_toNat, hv, BitVec.toNat_setWidth]
  exact ⟨rfl, rfl⟩

/-- The 2-byte form of an operand (R102). -/
theorem venc_narrowLen_two {value : Half} (h1 : 128 ≤ value.toNat) (h2 : value.toNat ≤ 32767) :
    venc (narrowLen value) = [0x80#8 ||| (value >>> 8).setWidth 8, value.setWidth 8] := by
  have hv := narrowLen_toNat_of_le h2
  have hhigh : (narrowLen value >>> 8).setWidth 8 = (value >>> 8).setWidth 8 := by
    rw [← BitVec.toNat_inj]
    simp only [BitVec.toNat_setWidth, BitVec.toNat_ushiftRight, hv]
  have hlow : (narrowLen value).extractLsb' 0 8 = value.setWidth 8 := by
    rw [← BitVec.toNat_inj, low_byte_toNat, hv, BitVec.toNat_setWidth]
  rw [venc_two (by omega), first_or, hhigh, hlow]

/-- Bytes written before an answer stand where they were written, and nothing else changes (R68). -/
theorem State.stores_memWrite_ok (s : State) (a : Nat) {bytes : List Byte} {n : Nat} {f : Nat → Byte}
    (hn : bytes.length = n) (hf : ∀ i (h : i < bytes.length), bytes[i] = f i) (r0 : Word) (r1 : Nat) :
    Stores s ((s.memWrite a bytes).ok r0 r1) a n f := by
  subst hn
  refine ⟨fun i hi => ?_, fun c hc => s.bmByte_memWrite_outside a c bytes hc, fun k => ?_, rfl, rfl, rfl⟩
  · rw [State.bmByte_ok, s.bmByte_memWrite_inside a i bytes hi, hf i hi]
  · rw [State.bank_ok, State.bank_memWrite]

/-- `State.ok` answers, the count kept in 16 bits (R36). -/
theorem State.responds_ok (s : State) (r0 : Word) {r1 : Nat} (h : r1 < 2 ^ 16) : Responds (s.ok r0 r1) .ok r0 r1 :=
  (s.onlyResponds_ok r0 h).1

/-- Settles O28. -/
theorem vpredictClassifies : Obligations.VpredictClassifies := by
  intro value s
  have hexec := exec_vpredict_eq s value
  refine ⟨fun h => ?_, fun ⟨h1, h2⟩ => ?_, fun h => ?_, ?_⟩
  · rw [if_neg (by omega), lengthWidth, if_pos h] at hexec
    exact ⟨_, hexec, s.onlyResponds_ok 0 (by decide)⟩
  · rw [if_neg (by omega), lengthWidth, if_neg (by omega)] at hexec
    exact ⟨_, hexec, s.onlyResponds_ok 0 (by decide)⟩
  · rw [if_pos (by omega)] at hexec
    exact ⟨_, hexec, s.fails_raise _⟩
  · exact Instr.hasEncoding_of_operation rfl rfl (low_half 0 value)

/-- Settles O29: the checks in order, and the bytes of each form. -/
theorem vencodeWritesTheVarint : Obligations.VencodeWritesTheVarint := by
  intro value base cap s
  have hexec := exec_vencode_eq s value base cap
  refine ⟨fun hr hv hc => ?_, fun hr hv1 hv2 hc => ?_, fun hr => ?_, fun hr hv => ?_, fun hr hv hc => ?_, ?_⟩
  · have hw : lengthWidth value.toNat = 1 := if_pos hv
    rw [if_neg (not_not.2 hr), if_neg (by omega), if_neg (by omega), hw, venc_narrowLen_one hv] at hexec
    refine ⟨_, hexec, State.responds_ok _ 0 (by decide), s.stores_memWrite_ok _ rfl (fun i hi => ?_) 0 1⟩
    rw [List.getElem_singleton]
  · have hw : lengthWidth value.toNat = 2 := if_neg (by omega)
    rw [if_neg (not_not.2 hr), if_neg (by omega), if_neg (by omega), hw, venc_narrowLen_two hv1 hv2] at hexec
    refine ⟨_, hexec, State.responds_ok _ 0 (by decide), s.stores_memWrite_ok _ rfl (fun i hi => ?_) 0 2⟩
    match i, hi with
    | 0, _ => rfl
    | 1, _ => rfl
  · rw [if_pos (by omega)] at hexec
    exact ⟨_, hexec, s.fails_raise _⟩
  · rw [if_neg (not_not.2 hr), if_pos (by omega)] at hexec
    exact ⟨_, hexec, s.fails_raise _⟩
  · rw [if_neg (not_not.2 hr), if_neg (by omega), if_pos hc] at hexec
    exact ⟨_, hexec, s.fails_raise _⟩
  · exact Instr.hasEncoding_of_operation rfl rfl ⟨low_half cap value, rfl, high_half cap value⟩

/-! ### The bytes read -/

section

variable (f : Nat → Byte) (a : Nat) {n : Nat}

theorem slice_add (m n : Nat) : slice f a (m + n) = slice f a m ++ slice f (a + m) n := by
  induction m generalizing a with
  | zero => rw [Nat.zero_add, slice, List.nil_append, Nat.add_zero]
  | succ m ih => rw [Nat.succ_add, slice, slice, ih, List.cons_append, Nat.add_right_comm, Nat.add_assoc]

theorem vdec_slice_one (hn : 1 ≤ n) (h : (f a).toNat < 128) :
    vdec (slice f a n) = some ((f a).setWidth 15, 1) := by
  obtain ⟨m, rfl⟩ := Nat.exists_eq_add_of_le' hn
  exact vdec_one _ h

theorem vdec_slice_two (hn : 2 ≤ n) (h : 128 ≤ (f a).toNat) :
    vdec (slice f a n) = some ((f a).extractLsb' 0 7 ++ f (a + 1), 2) := by
  obtain ⟨m, rfl⟩ := Nat.exists_eq_add_of_le' hn
  exact vdec_two _ _ h

theorem vdec_slice_short (h : n = 0 ∨ (n = 1 ∧ 128 ≤ (f a).toNat)) : vdec (slice f a n) = none := by
  obtain rfl | ⟨rfl, hx⟩ := h
  · exact vdec_nil
  · exact vdec_short hx

end

/-- The value of a 2-byte form as a result, by shift and or (R102, R135). -/
theorem resultOf_two_byte (x y : Byte) :
    resultOf (x.extractLsb' 0 7 ++ y) = ((x &&& 0x7F).setWidth 32 <<< 8) ||| y.setWidth 32 := by
  have hx : (x &&& 0x7F).toNat = x.toNat % 128 := by
    revert x
    decide
  have hor : x.toNat % 128 * 2 ^ 8 ||| y.toNat = x.toNat % 128 * 256 + y.toNat := by
    rw [← Nat.shiftLeft_eq, ← Nat.shiftLeft_add_eq_or_of_lt y.isLt, Nat.shiftLeft_eq]
  rw [← BitVec.toNat_inj, resultOf, BitVec.toNat_setWidth, two_byte_value]
  simp (disch := omega) only [BitVec.toNat_or, BitVec.toNat_shiftLeft, BitVec.toNat_setWidth, hx, Nat.shiftLeft_eq,
    Nat.mod_eq_of_lt, hor]

/-- Settles O30: the form by the first byte and the room for it. -/
theorem vdecodeReadsTheVarint : Obligations.VdecodeReadsTheVarint := by
  intro base avail s
  refine ⟨fun hr hn hx => ?_, fun hr hn hx => ?_, fun hr => ?_, fun hr hn => ?_, ?_⟩
  · have hv : resultOf ((s.bmByte base.toNat).setWidth 15) = (s.bmByte base.toNat).setWidth 32 :=
      BitVec.setWidth_setWidth (by decide)
    exact ⟨_, exec_vdecode_of_some hr (vdec_slice_one _ _ hn hx), hv ▸ s.onlyResponds_ok _ (by decide)⟩
  · rw [← resultOf_two_byte]
    exact ⟨_, exec_vdecode_of_some hr (vdec_slice_two _ _ hn hx), s.onlyResponds_ok _ (by decide)⟩
  · exact ⟨_, exec_vdecode_of_outside hr, s.fails_raise _⟩
  · exact ⟨_, exec_vdecode_of_none hr (vdec_slice_short _ _ hn), s.fails_raise _⟩
  · exact Instr.hasEncoding_of_operation rfl rfl ⟨rfl, low_half 0 avail⟩

/-! ### The bytes written, read again -/

/-- A `VENCODE` that succeeds has written the varint of a representable value (R132). -/
theorem vencode_of_ok {s t : State} {value base cap : Half} (h : exec (.vencode value base cap) s = .next t)
    (hok : t.rsp.st = .ok) : value.toNat ≤ 32767 ∧
      t = (s.memWrite base.toNat (venc (narrowLen value))).ok 0 (lengthWidth value.toNat) := by
  rw [exec_vencode_eq, Host.Outcome.next.injEq] at h
  subst h
  split at hok
  next => cases hok
  next hr =>
    split at hok
    next => cases hok
    next hv =>
      split at hok
      next => cases hok
      next hc => exact ⟨Nat.le_of_not_lt hv, by rw [if_neg hr, if_neg hv, if_neg hc]⟩

/-- At least as many bytes as were written, read at the place of a varint, decode to its value (R137, R138 (c)). -/
theorem vdec_memRead_memWrite_venc (s : State) (a : Nat) (v : BitVec 15) {n : Nat} (hn : (venc v).length ≤ n) :
    vdec ((s.memWrite a (venc v)).memRead a n) = some (v, (venc v).length) := by
  obtain ⟨m, rfl⟩ := Nat.exists_eq_add_of_le hn
  rw [State.memRead, slice_add, (s.at_memWrite a (venc v)).slice]
  exact vdec_append (vdec_venc v) _

/-- The value read back is the operand, zero-extended (R137). -/
theorem resultOf_narrowLen {value : Half} (h : value.toNat ≤ 32767) :
    resultOf (narrowLen value) = value.setWidth 32 := by
  rw [resultOf, ← BitVec.toNat_inj, BitVec.toNat_setWidth, BitVec.toNat_setWidth, narrowLen_toNat_of_le h]

/-- Settles O32: `VDECODE` reads the bytes that `VENCODE` wrote. -/
theorem vencodeThenVdecode : Obligations.VencodeThenVdecode := by
  refine ⟨fun v => ⟨_, vpredict_setWidth_eq_length v, vdec_venc v⟩, ?_⟩
  intro value base cap n s t hexec hok hn hr
  obtain ⟨hv, rfl⟩ := vencode_of_ok hexec hok
  have hw : lengthWidth value.toNat < 2 ^ 16 := (lengthWidth_le_two _).trans_lt (by decide)
  rw [State.ok_rsp, BitVec.toNat_ofNat, Nat.mod_eq_of_lt hw] at hn ⊢
  have hlen := venc_narrowLen_length hv
  have hdec := vdec_memRead_memWrite_venc s base.toNat (narrowLen value) (hlen.trans_le hn)
  rw [hlen] at hdec
  rw [← resultOf_narrowLen hv]
  exact ⟨_, exec_vdecode_of_some (s := (s.memWrite base.toNat (venc (narrowLen value))).ok 0 _) hr hdec,
    State.onlyResponds_ok _ _ hw⟩

end Sys2Proof.Machine
end

section
/-! SUPPORT. The checksum unit: the operation `CRC32` as a check and an answer (R156), and that the default function
tells apart inputs that differ in one byte (R152, R153). -/

namespace Sys2Proof.Machine

/-! ### The operation -/

theorem exec_crc32_eq (s : State) (e : Engine) (base len : Half) : exec (.crc32 e base len) s = .next (
    if ¬base.toNat + len.toNat ≤ s.params.bmSize then s.raise .addressError
    else s.ok (crc32Of s.params.crc32 (slice s.bmByte base.toNat len.toNat)) len.toNat) := by
  simp only [exec, execCrc32, Bool.not_eq_true', ← Bool.not_eq_true, State.inRange_iff, State.crc_eq, State.memRead]

/-- Settles O33: the range check, then the answer, in which the engine does not appear. -/
theorem crc32CoversTheRange : Obligations.Crc32CoversTheRange := by
  intro e base len s
  have hexec := exec_crc32_eq s e base len
  refine ⟨fun hr => ?_, fun hr => ?_, ?_⟩
  · rw [if_neg (not_not.2 hr)] at hexec
    exact ⟨_, hexec, s.onlyResponds_ok _ len.isLt⟩
  · rw [if_pos (Nat.not_le.2 hr)] at hexec
    exact ⟨_, hexec, s.fails_raise _⟩
  · exact Instr.hasEncoding_of_operation rfl rfl ⟨rfl, rfl, low_half 0 len⟩

/-! ### The default function -/

/-- Settles O35, by running the function on each input. -/
theorem crcDefaultValues : Obligations.CrcDefaultValues := by
  unfold Obligations.CrcDefaultValues
  decide +kernel

/-- Different bytes leave different accumulators: the bit steps lose nothing. -/
theorem crcByte_injective {acc : Word} {x y : Byte} (h : crcByte acc x = crcByte acc y) : x = y := by
  have hwide : x.setWidth 32 = y.setWidth 32 := (BitVec.xor_right_inj acc).1 (crcBits_injective 8 h)
  simpa using congrArg (BitVec.setWidth 8) hwide

/-- Two inputs that differ in one byte have different checksums: the accumulators differ after that byte, and the
bytes after it keep them apart. -/
theorem crc32IsoHdlc_ne_of_byte_ne (before after : List Byte) {x y : Byte} (h : x ≠ y) :
    crc32IsoHdlc (before ++ x :: after) ≠ crc32IsoHdlc (before ++ y :: after) := by
  intro heq
  have hacc := (BitVec.xor_left_inj _).1 heq
  rw [crcAcc_append, crcAcc_append] at hacc
  exact h (crcByte_injective (crcAcc_injective after hacc))

/-- A byte with one bit flipped is another byte. -/
theorem flipped_ne {i : Nat} (hi : i < 8) (x : Byte) : x ^^^ (1#8 <<< i) ≠ x := by
  have hbit : ∀ i < 8, 1#8 <<< i ≠ 0#8 := by decide
  rw [← BitVec.xor_zero (x := x), BitVec.xor_assoc, ne_eq, BitVec.xor_right_inj, BitVec.zero_xor]
  exact hbit i hi

/-- Settles O34: the flipped byte is another byte. -/
theorem crcDetectsOneBit : Obligations.CrcDetectsOneBit :=
  fun before after x _ hi => crc32IsoHdlc_ne_of_byte_ne before after (flipped_ne hi x).symm

end Sys2Proof.Machine
end

section
/-! SUPPORT. A run of bytes with its checksum behind it, as a frame has two of them (R96), and what becomes of it when
one byte is replaced (R153). -/

namespace Sys2Proof.Machine

/-- The `n` bytes from `a` are followed by their checksum. -/
def Checksummed (crc : List Byte → Word) (f : Nat → Byte) (a n : Nat) : Prop :=
  crc (slice f a n) = fromBe32 f (a + n)

section

variable {f : Nat → Byte} {j : Nat} {x : Byte}

/-! ### One byte replaced -/

theorem slice_update_outside {a n : Nat} (h : j < a ∨ a + n ≤ j) :
    slice (Function.update f j x) a n = slice f a n :=
  slice_congr fun _ _ => Function.update_of_ne (β := fun _ => Byte) (by omega) x f

/-- A slice, taken apart at one of its bytes. -/
theorem slice_split (f : Nat → Byte) {a n : Nat} (ha : a ≤ j) (hn : j < a + n) :
    slice f a n = slice f a (j - a) ++ f j :: slice f (j + 1) (a + n - (j + 1)) := by
  obtain ⟨m, rfl⟩ := Nat.exists_eq_add_of_le ha
  obtain ⟨r, hr⟩ := Nat.exists_eq_add_of_lt (Nat.lt_of_add_lt_add_left hn)
  subst hr
  rw [show a + (m + r + 1) - (a + m + 1) = r by omega, Nat.add_sub_cancel_left, Nat.add_assoc m r 1, slice_add]
  rfl

theorem slice_update_inside {a n : Nat} (ha : a ≤ j) (hn : j < a + n) :
    slice (Function.update f j x) a n = slice f a (j - a) ++ x :: slice f (j + 1) (a + n - (j + 1)) := by
  rw [slice_split _ ha hn, slice_update_outside (by omega), Function.update_self, slice_update_outside (by omega)]

/-- Two values with the same bits in front and the same bits behind. -/
theorem bits_append_eq_iff {m n : Nat} {x y : BitVec m} {u v : BitVec n} : x ++ u = y ++ v ↔ x = y ∧ u = v := by
  refine ⟨fun h => ⟨?_, ?_⟩, fun ⟨hx, hu⟩ => by rw [hx, hu]⟩
  · simpa only [BitVec.extractLsb'_append_eq_left] using congrArg (BitVec.extractLsb' n m) h
  · simpa only [BitVec.extractLsb'_append_eq_right] using congrArg (BitVec.extractLsb' 0 n) h

/-- A big-endian value is its four bytes (R64). -/
theorem fromBe32_eq_iff {g : Nat → Byte} {a : Nat} : fromBe32 g a = fromBe32 f a ↔
    ((g a = f a ∧ g (a + 1) = f (a + 1)) ∧ g (a + 2) = f (a + 2)) ∧ g (a + 3) = f (a + 3) := by
  rw [fromBe32, fromBe32, bits_append_eq_iff, bits_append_eq_iff, bits_append_eq_iff]

theorem fromBe32_update_outside {a : Nat} (h : j < a ∨ a + 4 ≤ j) :
    fromBe32 (Function.update f j x) a = fromBe32 f a := by
  simp (disch := omega) only [fromBe32, Function.update_of_ne]

/-- Each of the four bytes shows in the value (R64). -/
theorem fromBe32_update_inside {a : Nat} (ha : a ≤ j) (hn : j < a + 4) (hx : x ≠ f j) :
    fromBe32 (Function.update f j x) a ≠ fromBe32 f a := by
  rw [ne_eq, fromBe32_eq_iff]
  obtain rfl | rfl | rfl | rfl : j = a ∨ j = a + 1 ∨ j = a + 2 ∨ j = a + 3 := by omega
  all_goals simp [hx]

/-! ### The checksum no longer fits -/

/-- Under the default function, another byte in the run or in its checksum is detected. -/
theorem Checksummed.not_update {a n : Nat} (h : Checksummed crc32IsoHdlc f a n) (ha : a ≤ j) (hn : j < a + n + 4)
    (hx : x ≠ f j) : ¬Checksummed crc32IsoHdlc (Function.update f j x) a n := by
  unfold Checksummed at h ⊢
  by_cases hj : j < a + n
  · rw [fromBe32_update_outside (.inl hj), ← h, slice_update_inside ha hj, slice_split f ha hj]
    exact crc32IsoHdlc_ne_of_byte_ne _ _ hx
  · rw [slice_update_outside (.inr (Nat.le_of_not_lt hj)), h]
    exact (fromBe32_update_inside (Nat.le_of_not_lt hj) hn hx).symm

/-- A byte that is neither in the run nor in its checksum does not matter. -/
theorem checksummed_update_outside {crc : List Byte → Word} {a n : Nat} (h : j < a ∨ a + n + 4 ≤ j) :
    Checksummed crc (Function.update f j x) a n ↔ Checksummed crc f a n := by
  rw [Checksummed, Checksummed, slice_update_outside (by omega), fromBe32_update_outside (by omega)]

end

/-! ### The checksums of an input -/

/-- Without the truncated bit there is nothing to mask (R239). -/
theorem maskedHeader_eq_slice {f : Nat → Byte} (h : inTr f = 0) :
    (f 0 &&& 0xDF#8) :: slice f 1 (inHeader f - 1) = slice f 0 (inHeader f) := by
  have hmask : ∀ x : Byte, x.toNat / 32 % 2 = 0 → x &&& 0xDF#8 = x := by decide
  rw [hmask (f 0) h, inHeader, Nat.add_comm]
  rfl

/-- Without the truncated bit the header is checksummed as it stands (R239). -/
theorem inCrc1Ok_iff {crc : List Byte → Word} {f : Nat → Byte} (h : inTr f = 0) :
    inCrc1Ok crc f ↔ Checksummed crc f 0 (inHeader f) := by
  rw [inCrc1Ok, maskedHeader_eq_slice h, Checksummed, Nat.zero_add]

theorem inCrc2Ok_iff {crc : List Byte → Word} {f : Nat → Byte} :
    inCrc2Ok crc f ↔ Checksummed crc f (inHeader f + 4) (inLen f) := Iff.rfl

end Sys2Proof.Machine
end

section
/-! SUPPORT. What an encoded frame announces to the decoder (R96, R97, R210), and the outcome of `PENC` in these
words. -/

namespace Sys2Proof.Machine

/-! ### The frame of a bank as an input -/

section

variable {crc : List Byte → Word} {mask : Bool} {b : Bank} {pl f : Nat → Byte} (h : IsFrame crc mask b pl f 0)
include h

theorem IsFrame.byte0_eq : f 0 = byte0 b.type b.tr b.win := by
  obtain ⟨hfirst, _⟩ := h
  rw [hfirst, byte0_or]

theorem IsFrame.inType_eq : inType f = b.type.toNat := by
  have hunpack : ∀ (t : BitVec 2) (r : BitVec 1) (w : BitVec 5), byte0Type (byte0 t r w) = t := by decide
  rw [inType, ← byte0Type_toNat, h.byte0_eq, hunpack]

theorem IsFrame.inTr_eq : inTr f = b.tr.toNat := by
  have hunpack : ∀ (t : BitVec 2) (r : BitVec 1) (w : BitVec 5), byte0Tr (byte0 t r w) = r := by decide
  rw [inTr, ← byte0Tr_toNat, h.byte0_eq, hunpack]

/-- The 1-byte form of the length (R101). -/
theorem IsFrame.length_byte (hlen : b.len.toNat ≤ 127) : (f 1).toNat = b.len.toNat := by
  obtain ⟨_, hone, _⟩ := h
  rw [hone hlen, BitVec.toNat_setWidth]
  omega

/-- The 2-byte form of the length (R102). -/
theorem IsFrame.length_bytes (hlen : 128 ≤ b.len.toNat) :
    (f 1).toNat = 128 + b.len.toNat / 256 ∧ (f 2).toNat = b.len.toNat % 256 := by
  obtain ⟨_, _, htwo, _⟩ := h
  obtain ⟨hhigh, hlow⟩ := htwo hlen
  rw [hhigh, hlow, ← first_or, two_byte_first, BitVec.toNat_setWidth]
  exact ⟨rfl, rfl⟩

theorem IsFrame.inWidth_eq : inWidth f = lengthWidth b.len.toNat := by
  unfold inWidth lengthWidth
  by_cases hlen : b.len.toNat ≤ 127
  · rw [h.length_byte hlen, if_pos hlen, if_pos (by omega)]
  · obtain ⟨hhigh, _⟩ := h.length_bytes (by omega)
    rw [hhigh, if_neg hlen, if_neg (by omega)]

theorem IsFrame.inLen_eq : inLen f = b.len.toNat := by
  unfold inLen
  by_cases hlen : b.len.toNat ≤ 127
  · rw [h.length_byte hlen, if_pos (by omega)]
  · obtain ⟨hhigh, hlow⟩ := h.length_bytes (by omega)
    have := b.len.isLt
    rw [hhigh, hlow, if_neg (by omega)]
    omega

theorem IsFrame.inHeader_eq : inHeader f = headerSize b.len.toNat := by
  rw [inHeader, headerSize, h.inWidth_eq]

/-- Without the truncated flag the header checksum fits, whether the encoder masks or not (R218, R239). -/
theorem IsFrame.inCrc1Ok (htr : b.tr = 0) : inCrc1Ok crc f := by
  have hclear : inTr f = 0 := by rw [h.inTr_eq, htr]; rfl
  have hslice := maskedHeader_eq_slice hclear
  obtain ⟨_, _, _, _, _, hcrc, _⟩ := id h
  rw [← h.inHeader_eq, Nat.zero_add, Nat.zero_add] at hcrc
  rw [Machine.inCrc1Ok, hcrc]
  cases mask with
  | true => rfl
  | false => rw [hslice]; rfl

/-- The payload checksum fits (R220). -/
theorem IsFrame.inCrc2Ok : inCrc2Ok crc f := by
  obtain ⟨_, _, _, _, _, _, hpayload, hcrc⟩ := id h
  rw [← h.inHeader_eq, ← h.inLen_eq, Nat.zero_add] at hcrc hpayload
  rw [Machine.inCrc2Ok, hcrc]
  exact congrArg crc (slice_congr fun i hi => by rw [hpayload i hi, Nat.zero_add])

end

/-! ### The outcome of `PENC` -/

/-- A `PENC` that succeeds has written the frame of the bank (R210). -/
theorem penc_of_ok {s t : State} {k : BankId} {base cap : Half} (h : exec (.penc k base cap) s = .next t)
    (hok : t.rsp.st = .ok) :
    base.toNat + cap.toNat ≤ s.params.bmSize ∧
      headerSize (s.bank k).len.toNat + 8 + (s.bank k).len.toNat ≤ cap.toNat ∧
      t = (s.memWrite base.toNat (s.frame k)).ok 0 (headerSize (s.bank k).len.toNat + 8 + (s.bank k).len.toNat) := by
  rw [exec_penc_eq, Host.Outcome.next.injEq] at h
  subst h
  split at hok
  next => cases hok
  next hr =>
    split at hok
    next => cases hok
    next hl =>
      split at hok
      next => cases hok
      next hc => exact ⟨not_not.1 hr, Nat.le_of_not_lt hc, by rw [if_neg hr, if_neg hl, if_neg hc]⟩

/-- The number of bytes that a successful `PENC` reports, and that they lie inside the buffer memory (R210). -/
theorem penc_size {s t : State} {k : BankId} {base cap : Half} (h : exec (.penc k base cap) s = .next t)
    (hok : t.rsp.st = .ok) :
    t.rsp.r1.toNat = headerSize (s.bank k).len.toNat + 8 + (s.bank k).len.toNat ∧
      base.toNat + t.rsp.r1.toNat ≤ t.params.bmSize := by
  obtain ⟨hr, hc, rfl⟩ := penc_of_ok h hok
  have hr1 := Nat.mod_eq_of_lt (hc.trans_lt cap.isLt)
  simp only [State.ok_rsp, State.ok_params, State.memWrite_params, BitVec.toNat_ofNat, hr1]
  exact ⟨trivial, by omega⟩

/-- What a successful `PENC` leaves at its base is the frame of the bank (R96, R210). -/
theorem penc_isFrame {s t : State} {k : BankId} {base cap : Half} (h : exec (.penc k base cap) s = .next t)
    (hok : t.rsp.st = .ok) :
    IsFrame (crc32Of s.params.crc32) s.params.encMaskTr (s.bank k) (s.plByte k) (fromBase t base) 0 := by
  obtain ⟨_, _, rfl⟩ := penc_of_ok h hok
  refine State.frame_isFrame fun i hi => ?_
  rw [Nat.zero_add, fromBase, State.bmByte_ok]
  exact s.at_memWrite base.toNat (s.frame k) i hi

end Sys2Proof.Machine
end

section
/-! SUPPORT. `PDEC` of an input whose header is sound up to its checksum: the outcome by what the two checksums and the
type say (R230, R242, R243). -/

namespace Sys2Proof.Machine

/-! ### The operation by the decoder's answer -/

section

variable {s : State} {base len : Half} (hr : base.toNat + len.toNat ≤ s.params.bmSize)
include hr

theorem exec_pdec_of_error (k : BankId) {kind : Status}
    (h : decodeFrame (crc32Of s.params.crc32) (crc32Of s.params.crc32) len.toNat (fromBase s base) = .error kind) :
    exec (.pdec k base len) s = .next (s.raise kind) := by
  change decodeFrame (s.crc .e0) (s.crc .e1) len.toNat (fun i => s.bmByte (base.toNat + i)) = .error kind at h
  simp [exec, execPdec, State.inRange, hr, h]

theorem exec_pdec_of_ok (k : BankId) {d : Shadow}
    (h : decodeFrame (crc32Of s.params.crc32) (crc32Of s.params.crc32) len.toNat (fromBase s base) = .ok d) :
    exec (.pdec k base len) s = .next ((s.setBank k ((s.bank k).commit d)).ok 0 d.size) := by
  change decodeFrame (s.crc .e0) (s.crc .e1) len.toNat (fun i => s.bmByte (base.toNat + i)) = .ok d at h
  simp [exec, execPdec, State.inRange, hr, h]

end

/-! ### The decoder on a whole untruncated frame -/

/-- The input announces an untruncated frame of an accepted type and length that lies within its `n` bytes. -/
structure WholeFrame (n : Nat) (f : Nat → Byte) : Prop where
  typed : inType f ≠ 0
  untruncated : inTr f = 0
  cap : inLen f ≤ 512
  fits : inLen f + inHeader f + 8 ≤ n

/-- The packet that the header of an untruncated frame without payload bytes decodes to (R242, R243). -/
def headerShadow (f : Nat → Byte) : Shadow where
  type := byte0Type (f 0)
  tr := byte0Tr (f 0)
  win := byte0Win (f 0)
  len := BitVec.ofNat 15 (inLen f)
  seq := f (1 + inWidth f)
  ts := fromBe32 f (2 + inWidth f)
  crc1 := fromBe32 f (inHeader f)
  body := none
  size := inHeader f + 8 + inLen f

section

variable {crc1 crc2 : List Byte → Word} {n : Nat} {f : Nat → Byte} (h : WholeFrame n f)
include h

/-- Every check before the header checksum passes (R231 to R238). -/
theorem WholeFrame.decodeFrame_eq :
    decodeFrame crc1 crc2 n f = decodeRest crc1 crc2 n f (BitVec.ofNat 15 (inLen f)) (inWidth f) := by
  obtain ⟨htyped, htr, hcap, hfits⟩ := h
  have hhl : inHeader f = 6 + inWidth f := rfl
  have hw := inWidth_cases f
  obtain ⟨v, hv, heq⟩ := Machine.decodeFrame_eq crc1 crc2 f (show 11 ≤ n by omega)
  rw [heq, if_neg htyped, if_neg (by simp [htr]), if_neg (by omega), ← hv, BitVec.ofNat_toNat, BitVec.setWidth_eq]

theorem WholeFrame.decodeFrame_of_not_crc1 (hcrc : ¬inCrc1Ok crc1 f) :
    decodeFrame crc1 crc2 n f = .error .checksumMismatch := by
  rw [h.decodeFrame_eq, decodeRest_eq _ _ _ (ofNat_len_toNat h.cap), if_pos (.inr hcrc)]

/-- A payload checksum that does not fit is a mismatch in a DATA frame, whatever the header checksum says (R241). -/
theorem WholeFrame.decodeFrame_of_not_crc2 (hdata : inType f = 1) (hcrc : ¬inCrc2Ok crc2 f) :
    decodeFrame crc1 crc2 n f = .error .checksumMismatch := by
  obtain ⟨_, htr, hcap, hfits⟩ := id h
  rw [h.decodeFrame_eq, decodeRest_eq _ _ _ (ofNat_len_toNat hcap), if_pos (c := _ ∧ _ ∧ _) ⟨htr, hdata, hcrc⟩,
    if_neg (c := _ ∧ n < _) (by omega), ite_self]

/-- In a frame that is not DATA only the header and its checksum count (R242). -/
theorem WholeFrame.decodeFrame_of_not_data (hdata : inType f ≠ 1) (hcrc : inCrc1Ok crc1 f) :
    decodeFrame crc1 crc2 n f = .ok (headerShadow f) := by
  obtain ⟨_, htr, hcap, hfits⟩ := id h
  rw [h.decodeFrame_eq, decodeRest_eq _ _ _ (ofNat_len_toNat hcap), if_neg (not_or.2 ⟨by omega, not_not.2 hcrc⟩),
    if_neg (by omega), if_neg (by simp [hdata])]
  simp only [htr, hdata, and_false, if_false, if_true, headerShadow]

end

end Sys2Proof.Machine
end

section
/-! SUPPORT. One bit of a frame flipped in the buffer memory (R247): which of the announced fields and checksums it
leaves as they are, and what `PDEC` says. -/

namespace Sys2Proof.Machine

/-! ### The input after a flip -/

/-- The input with one bit of its byte `j` flipped. -/
abbrev flipInput (f : Nat → Byte) (j i : Nat) : Nat → Byte := Function.update f j (f j ^^^ (1#8 <<< i))

/-- A flipped bit of the buffer memory is a flipped bit of the input. -/
theorem fromBase_flipBit (s : State) (base : Half) (j i : Nat) :
    fromBase (flipBit s (base.toNat + j) i) base = flipInput (fromBase s base) j i := by
  funext c
  rw [fromBase, flipBit, State.bmByte_memWrite_singleton, flipInput, Function.update_apply]
  simp only [Nat.add_left_cancel_iff]
  rfl

@[simp] theorem flipBit_params (s : State) (a i : Nat) : (flipBit s a i).params = s.params := rfl

@[simp] theorem flipBit_bank (s : State) (a i : Nat) (k : BankId) : (flipBit s a i).bank k = s.bank k :=
  s.bank_memWrite k a _

/-- Two inputs that announce the same type, truncated flag and length. -/
structure SameAnnouncement (f g : Nat → Byte) : Prop where
  inType_eq : inType g = inType f
  inTr_eq : inTr g = inTr f
  inWidth_eq : inWidth g = inWidth f
  inLen_eq : inLen g = inLen f

section

variable {f g : Nat → Byte}

theorem SameAnnouncement.inHeader_eq (h : SameAnnouncement f g) : inHeader g = inHeader f := by
  rw [inHeader, inHeader, h.inWidth_eq]

theorem WholeFrame.of_sameAnnouncement {n : Nat} (hf : WholeFrame n f) (h : SameAnnouncement f g) : WholeFrame n g := by
  obtain ⟨htyped, htr, hcap, hfits⟩ := hf
  exact ⟨by rwa [h.inType_eq], by rwa [h.inTr_eq], by rwa [h.inLen_eq], by rwa [h.inLen_eq, h.inHeader_eq]⟩

/-- The announcement is in the upper three bits of byte 0 and in the length field (R97, R103). -/
theorem sameAnnouncement_of_agree (h0 : (g 0).toNat / 32 = (f 0).toNat / 32)
    (hlen : ∀ c, 1 ≤ c → c < 1 + inWidth f → g c = f c) : SameAnnouncement f g := by
  have hw := inWidth_cases f
  have h1 : g 1 = f 1 := hlen 1 (by omega) (by omega)
  refine ⟨by unfold inType; omega, by rw [inTr, inTr, h0], by rw [inWidth, inWidth, h1], ?_⟩
  unfold inLen
  rw [h1]
  split
  next => rfl
  next hx => rw [hlen 2 (by omega) (by rw [inWidth, if_neg hx]; omega)]

end

/-- A window bit is none of the announcement's. -/
theorem sameAnnouncement_flip_window (f : Nat → Byte) {i : Nat} (hi : i < 5) :
    SameAnnouncement f (flipInput f 0 i) := by
  have hwin : ∀ i < 5, ∀ x : Byte, (x ^^^ (1#8 <<< i)).toNat / 32 = x.toNat / 32 := by decide
  refine sameAnnouncement_of_agree ?_ fun c hc _ => Function.update_of_ne (by omega) _ _
  rw [flipInput, Function.update_self, hwin i hi]

/-- A byte behind the length field is no part of the announcement. -/
theorem sameAnnouncement_update {f : Nat → Byte} {j : Nat} (hj : 1 + inWidth f ≤ j) (x : Byte) :
    SameAnnouncement f (Function.update f j x) := by
  refine sameAnnouncement_of_agree ?_ fun c _ hc => Function.update_of_ne (by omega) _ _
  rw [Function.update_of_ne (by omega)]

section

variable {f : Nat → Byte} {j : Nat} (hj : inHeader f + 4 ≤ j) (x : Byte)
include hj

theorem sameAnnouncement_update_body : SameAnnouncement f (Function.update f j x) :=
  sameAnnouncement_update (by rw [inHeader] at hj; omega) x

/-- Behind the header and its checksum nothing shows in the header's fields. -/
theorem headerShadow_update : headerShadow (Function.update f j x) = headerShadow f := by
  have hhl : inHeader f = 6 + inWidth f := rfl
  have hann := sameAnnouncement_update_body hj x
  have hbyte : ∀ c < inHeader f, Function.update f j x c = f c :=
    fun c hc => Function.update_of_ne (β := fun _ => Byte) (by omega) x f
  simp (disch := omega) only [headerShadow, hann.inLen_eq, hann.inWidth_eq, hann.inHeader_eq, hbyte,
    fromBe32_update_outside]

/-- In a frame that is not DATA no byte behind the header and its checksum shows in the answer (R242). -/
theorem WholeFrame.decodeFrame_update_of_not_data {crc1 crc2 : List Byte → Word} {n : Nat} (h : WholeFrame n f)
    (hdata : inType f ≠ 1) (hcrc : inCrc1Ok crc1 f) :
    decodeFrame crc1 crc2 n (Function.update f j x) = .ok (headerShadow f) := by
  have hann := sameAnnouncement_update_body hj x
  have hwhole := h.of_sameAnnouncement hann
  rw [← headerShadow_update hj x]
  refine hwhole.decodeFrame_of_not_data (hann.inType_eq ▸ hdata) ?_
  rw [inCrc1Ok_iff hwhole.untruncated, hann.inHeader_eq, checksummed_update_outside (by omega)]
  exact (inCrc1Ok_iff h.untruncated).1 hcrc

end

/-! ### What `PDEC` says -/

/-- A successful `PENC` of an untruncated packet with a type and a length within the cap leaves a whole frame with both
checksums in place (R96, R210). -/
theorem penc_wholeFrame {s t : State} {k : BankId} {base cap : Half} (h : exec (.penc k base cap) s = .next t)
    (hok : t.rsp.st = .ok) (htype : (s.bank k).type ≠ 0) (htr : (s.bank k).tr = 0)
    (hlen : (s.bank k).len.toNat ≤ 512) : WholeFrame t.rsp.r1.toNat (fromBase t base) := by
  have hframe := penc_isFrame h hok
  obtain ⟨hsize, _⟩ := penc_size h hok
  refine ⟨?_, ?_, ?_, ?_⟩
  · rw [hframe.inType_eq]
    exact fun h0 => htype (BitVec.eq_of_toNat_eq h0)
  · rw [hframe.inTr_eq, htr]
    rfl
  · rwa [hframe.inLen_eq]
  · rw [hframe.inLen_eq, hframe.inHeader_eq]
    omega

theorem penc_params {s t : State} {k : BankId} {base cap : Half} (h : exec (.penc k base cap) s = .next t) :
    t.params = s.params := by
  obtain ⟨hparams, _, _⟩ := (exec_case h).sameBuild
  exact hparams

/-- `PDEC` fails on the flipped input as the decoder does. -/
theorem pdec_flipBit_fails {t : State} {base len : Half} {j i : Nat} {kind : Status}
    (hr : base.toNat + len.toNat ≤ t.params.bmSize) (hdefault : t.params.crc32 = .isoHdlc) (k : BankId)
    (h : decodeFrame crc32IsoHdlc crc32IsoHdlc len.toNat (flipInput (fromBase t base) j i) = .error kind) :
    ∃ u, exec (.pdec k base len) (flipBit t (base.toNat + j) i) = .next u ∧
      Fails (flipBit t (base.toNat + j) i) u kind := by
  refine ⟨_, exec_pdec_of_error (s := flipBit t (base.toNat + j) i) hr k ?_, State.fails_raise _ _⟩
  rw [fromBase_flipBit, flipBit_params, hdefault]
  exact h

/-- Settles O56: the flip keeps the announcement and falls in the header or its checksum, which no longer fit. -/
theorem headerBitFlipsAreDetected : Obligations.HeaderBitFlipsAreDetected := by
  intro a b base cap j i s t hexec hok hdefault htype htr hlen hj
  have hframe := penc_isFrame hexec hok
  have hwhole := penc_wholeFrame hexec hok htype htr hlen
  obtain ⟨_, hr⟩ := penc_size hexec hok
  have hcrc := (inCrc1Ok_iff hwhole.untruncated).1 (hframe.inCrc1Ok htr)
  rw [hdefault] at hcrc
  rw [← hframe.inWidth_eq, ← hframe.inHeader_eq] at hj
  have hi : i < 8 := by omega
  have hann : SameAnnouncement (fromBase t base) (flipInput (fromBase t base) j i) := by
    obtain ⟨rfl, hwin⟩ | ⟨hbehind, _⟩ := hj
    · exact sameAnnouncement_flip_window _ hwin
    · exact sameAnnouncement_update hbehind _
  have hflipped := hwhole.of_sameAnnouncement hann
  have hbad := hcrc.not_update (Nat.zero_le j) (by omega) (flipped_ne hi (fromBase t base j))
  rw [← hann.inHeader_eq, ← inCrc1Ok_iff hflipped.untruncated] at hbad
  exact pdec_flipBit_fails hr (penc_params hexec ▸ hdefault) b (hflipped.decodeFrame_of_not_crc1 hbad)

/-- Settles O57: the flip keeps the header; in a DATA frame it falls in the payload or its checksum, which no longer
fit, and in any other frame only the header decides. -/
theorem payloadBitFlipsAreDetectedInData : Obligations.PayloadBitFlipsAreDetectedInData := by
  intro a b base cap j i s t hexec hok hdefault htype htr hlen hj hend hi
  have hframe := penc_isFrame hexec hok
  have hwhole := penc_wholeFrame hexec hok htype htr hlen
  obtain ⟨hsize, hr⟩ := penc_size hexec hok
  rw [hsize, ← hframe.inHeader_eq, ← hframe.inLen_eq] at hend
  rw [← hframe.inHeader_eq] at hj
  refine ⟨fun hdata => ?_, fun hother => ?_⟩
  · have hann := sameAnnouncement_update_body hj (fromBase t base j ^^^ (1#8 <<< i))
    have htyped : inType (fromBase t base) = 1 := by rw [hframe.inType_eq, hdata]; rfl
    have hcrc := inCrc2Ok_iff.1 hframe.inCrc2Ok
    rw [hdefault] at hcrc
    have hbad := hcrc.not_update hj (by omega) (flipped_ne hi (fromBase t base j))
    rw [← hann.inHeader_eq, ← hann.inLen_eq, ← inCrc2Ok_iff] at hbad
    exact pdec_flipBit_fails hr (penc_params hexec ▸ hdefault) b
      ((hwhole.of_sameAnnouncement hann).decodeFrame_of_not_crc2 (hann.inType_eq.trans htyped) hbad)
  · have hnot : inType (fromBase t base) ≠ 1 := by
      rw [hframe.inType_eq]
      exact fun h1 => hother (BitVec.eq_of_toNat_eq h1)
    have hcrc := hframe.inCrc1Ok htr
    rw [← penc_params hexec] at hcrc
    refine ⟨_, _, exec_pdec_of_ok (s := flipBit t (base.toNat + j) i) hr b (d := headerShadow (fromBase t base)) ?_,
      exec_pdec_of_ok hr b (hwhole.decodeFrame_of_not_data hnot hcrc), rfl, rfl, ?_⟩
    · rw [fromBase_flipBit]
      exact hwhole.decodeFrame_update_of_not_data hj _ hnot hcrc
    · simp only [State.bank_ok, State.bank_setBank_same, flipBit_bank]

end Sys2Proof.Machine
end

section
/-! SUPPORT. The packet field operations in the words of the rules: each setter as a check and the bank it leaves (R170 to
R179), the getters as answers (R189 to R197), and the payload copied in and out (R180, R198). -/

namespace Sys2Proof.Machine

/-! ### A bank replaced -/

section

variable (s : State) (k : BankId)

theorem other_ne : other k ≠ k := by
  cases k <;> decide

/-- Replacing a bank and answering changes nothing else: neither the other bank nor the buffer memory (R171). -/
theorem State.bankBecomes_setBank_ok (b : Bank) (r0 : Word) (r1 : Nat) :
    BankBecomes s ((s.setBank k b).ok r0 r1) k b := by
  refine ⟨?_, ?_, fun a => ?_, s.setBank_params k b, s.setBank_inputs k b, s.setBank_resets k b⟩
  · rw [State.bank_ok, State.bank_setBank_same]
  · rw [State.bank_ok, State.bank_setBank_of_ne _ _ _ _ (other_ne k)]
  · rw [State.bmByte_ok, State.bmByte_setBank]

/-- What an operation does that replaces its bank whatever the operands. -/
theorem exec_replaces_bank {i : Instr} {b : Bank} (h : exec i s = .next ((s.setBank k b).ok 0 0)) :
    ∃ t, exec i s = .next t ∧ Responds t .ok 0 0 ∧ BankBecomes s t k b :=
  ⟨_, h, State.responds_ok _ 0 (by decide), s.bankBecomes_setBank_ok k b 0 0⟩

/-- What a setter does that stores under the condition `accepts` and fails under any condition that excludes it
(R171). -/
theorem exec_validated_setter {i : Instr} {b : Bank} {kind : Status} {accepts refuses : Prop} [Decidable accepts]
    (h : exec i s = .next (if accepts then (s.setBank k b).ok 0 0 else s.raise kind)) (hx : refuses → ¬accepts) :
    (accepts → ∃ t, exec i s = .next t ∧ Responds t .ok 0 0 ∧ BankBecomes s t k b) ∧
      (refuses → ∃ t, exec i s = .next t ∧ Fails s t kind) := by
  refine ⟨fun ha => ?_, fun hr => ?_⟩
  · rw [if_pos ha] at h
    exact exec_replaces_bank s k h
  · rw [if_neg (hx hr)] at h
    exact ⟨_, h, s.fails_raise kind⟩

/-! ### The setters -/

theorem typeAccepted_iff (t : Byte) : typeAccepted t.toNat = true ↔ t = 1 ∨ t = 2 ∨ t = 3 := by
  simp [typeAccepted, ← BitVec.toNat_inj, or_assoc]

theorem truncatedAccepted_iff (tr : Byte) (type : BitVec 2) :
    truncatedAccepted tr.toNat type = true ↔ tr = 0 ∨ (tr = 1 ∧ type = 1) := by
  simp [truncatedAccepted, ← BitVec.toNat_inj, Config.typeData]

/-- The low bits an operand is stored in are the operand cut to the field's width (R107). -/
theorem extractLsb'_zero_eq_setWidth {m n : Nat} (x : BitVec m) : x.extractLsb' 0 n = x.setWidth n := by
  rw [← BitVec.toNat_inj, BitVec.extractLsb'_toNat, BitVec.toNat_setWidth, Nat.shiftRight_zero]

theorem exec_settype_eq (t : Byte) : exec (.settype k t) s = .next (
    if t = 1 ∨ t = 2 ∨ t = 3 then (s.setBank k { s.bank k with type := t.setWidth 2 }).ok 0 0
    else s.raise .invalidType) := by
  simp only [exec, execSettype, Bool.not_eq_true', ← Bool.not_eq_true, typeAccepted_iff, narrowType,
    extractLsb'_zero_eq_setWidth, ite_not]

theorem exec_settr_eq (tr : Byte) : exec (.settr k tr) s = .next (
    if tr = 0 ∨ (tr = 1 ∧ (s.bank k).type = 1) then (s.setBank k { s.bank k with tr := tr.setWidth 1 }).ok 0 0
    else s.raise .invalidTruncationFlag) := by
  simp only [exec, execSettr, Bool.not_eq_true', ← Bool.not_eq_true, truncatedAccepted_iff, narrowTr,
    extractLsb'_zero_eq_setWidth, ite_not]

theorem exec_setwin_eq (w : Byte) : exec (.setwin k w) s = .next (
    if w.toNat ≤ 31 then (s.setBank k { s.bank k with win := w.setWidth 5 }).ok 0 0
    else s.raise .invalidWindow) := by
  simp only [exec, execSetwin, Config.winMax, gt_iff_lt, ← Nat.not_le, narrowWin, extractLsb'_zero_eq_setWidth, ite_not]

/-- Below the cap the length is representable, so the second check of `SETLEN` never fires (R175). -/
theorem exec_setlen_eq (len : Half) : exec (.setlen k len) s = .next (
    if len.toNat ≤ 512 then (s.setBank k { s.bank k with len := len.setWidth 15 }).ok 0 0
    else s.raise .invalidLength) := by
  simp only [exec, execSetlen, Config.lenCap, gt_iff_lt, ← Nat.not_le, vpredict_eq_lengthWidth, narrowLen,
    extractLsb'_zero_eq_setWidth, ite_not]
  by_cases h : len.toNat ≤ 512
  · simp only [if_pos h, if_pos (show len.toNat ≤ 32767 by omega)]
  · simp only [if_neg h]

/-! ### The getters -/

/-- A getter's answer is the field, and nothing but the response changes (R189). -/
theorem State.onlyResponds_answer {w : Nat} (field : BitVec w) :
    OnlyResponds s (s.answer field) .ok (field.setWidth 32) 0 :=
  s.onlyResponds_ok _ (by decide)

theorem State.onlyResponds_answer_word (field : Word) : OnlyResponds s (s.answer field) .ok field 0 := by
  simpa using s.onlyResponds_answer field

/-! ### The payload -/

/-- Beyond the bytes copied to its start, a payload store reads as before (R180). -/
theorem State.plByte_setBank_of_beyond {b : Bank} {bytes : List Byte} (hb : b.pl = (s.bank k).pl.setBytes 0 bytes)
    {i : Nat} (hi : bytes.length ≤ i) : (s.setBank k b).plByte k i = s.plByte k i := by
  simp [State.plByte, hb, Bank.get?_pl_setBytes, Nat.not_lt.2 hi]

/-- The bank that `SETPAY` leaves, its counts as the operand cut to their widths (R180). -/
theorem assignPayload_memRead_eq (base len : Half) :
    (s.bank k).assignPayload (s.memRead base.toNat len.toNat) =
      { s.bank k with
        len := len.setWidth 15
        plen := len.setWidth 10
        pv := true
        pl := (s.bank k).pl.setBytes 0 (s.memRead base.toNat len.toNat) } := by
  simp [Bank.assignPayload, narrowPlen]

/-- `SETPAY` keeps one count, in fields of two widths (R180). -/
theorem Bank.assignPayload_len_eq_plen (b : Bank) {bytes : List Byte} (h : bytes.length ≤ 512) :
    (b.assignPayload bytes).len.toNat = (b.assignPayload bytes).plen.toNat :=
  (ofNat_len_toNat h).trans (narrowPlen_toNat h).symm

/-- A payload of at most 512 bytes leaves a length-consistent bank (R33, R180). -/
theorem Bank.assignPayload_lengthConsistent (b : Bank) {bytes : List Byte} (h : bytes.length ≤ 512) :
    (b.assignPayload bytes).lengthConsistent = true := by
  rw [Bank.lengthConsistent, Bank.assignPayload_epl b h]
  exact decide_eq_true (ofNat_len_toNat h)

end

/-! ### The obligations -/

/-- Settles O23, by the four things an instruction can do. -/
theorem onlyTheNamedBankIsWritten : Obligations.OnlyTheNamedBankIsWritten :=
  fun _ _ _ _ hexec hk => (exec_case hexec).bank_eq hk

/-- Settles O36. -/
theorem pclearEmptiesTheBank : Obligations.PclearEmptiesTheBank :=
  fun k s => ⟨exec_replaces_bank s k rfl, Instr.hasEncoding_of_operation rfl rfl rfl⟩

/-- Settles O37: the whole operand is compared, so no value from 4 on passes for its low bits. -/
theorem settypeChecksTheType : Obligations.SettypeChecksTheType := by
  intro k t s
  have hx : t = 0 ∨ 4 ≤ t.toNat → ¬(t = 1 ∨ t = 2 ∨ t = 3) := by bv_omega
  obtain ⟨hstores, hfails⟩ := exec_validated_setter s k (exec_settype_eq s k t) hx
  exact ⟨hstores, hfails, Instr.hasEncoding_of_operation rfl rfl ⟨rfl, low_byte t⟩⟩

/-- Settles O38: the test is on the operand and the type the bank has. -/
theorem settrChecksValueAndType : Obligations.SettrChecksValueAndType := by
  intro k tr s
  have hx : 2 ≤ tr.toNat ∨ (tr = 1 ∧ (s.bank k).type ≠ 1) → ¬(tr = 0 ∨ (tr = 1 ∧ (s.bank k).type = 1)) := by
    rintro (h | ⟨rfl, h⟩)
    · bv_omega
    · rintro (h0 | ⟨_, h1⟩)
      · exact absurd h0 (by decide)
      · exact h h1
  obtain ⟨hstores, hfails⟩ := exec_validated_setter s k (exec_settr_eq s k tr) hx
  exact ⟨hstores, hfails, Instr.hasEncoding_of_operation rfl rfl ⟨rfl, low_byte tr⟩⟩

/-- Settles O39. -/
theorem setwinChecksTheWindow : Obligations.SetwinChecksTheWindow := by
  intro k w s
  obtain ⟨hstores, hfails⟩ := exec_validated_setter s k (exec_setwin_eq s k w) Nat.not_le_of_lt
  exact ⟨hstores, hfails, Instr.hasEncoding_of_operation rfl rfl ⟨rfl, low_byte w⟩⟩

/-- Settles O40. -/
theorem setlenChecksTheCap : Obligations.SetlenChecksTheCap := by
  intro k len s
  obtain ⟨hstores, hfails⟩ := exec_validated_setter s k (exec_setlen_eq s k len) Nat.not_le_of_lt
  exact ⟨hstores, hfails, Instr.hasEncoding_of_operation rfl rfl ⟨rfl, low_half 0 len⟩⟩

/-- Settles O41: no check stands before the assignment. -/
theorem unconditionalSettersStore : Obligations.UnconditionalSettersStore := by
  refine fun k s => ⟨fun sq => ?seq, fun x => ?ts, fun c => ?crc1, fun c => ?crc2⟩
  case seq => exact ⟨exec_replaces_bank s k rfl, Instr.hasEncoding_of_operation rfl rfl ⟨rfl, low_byte sq⟩⟩
  case ts => exact ⟨exec_replaces_bank s k rfl, Instr.hasEncoding_of_operation rfl rfl ⟨rfl, rfl⟩⟩
  case crc1 => exact ⟨exec_replaces_bank s k rfl, Instr.hasEncoding_of_operation rfl rfl ⟨rfl, rfl⟩⟩
  case crc2 => exact ⟨exec_replaces_bank s k rfl, Instr.hasEncoding_of_operation rfl rfl ⟨rfl, rfl⟩⟩

/-- Settles O43. -/
theorem gettersAnswerTheField : Obligations.GettersAnswerTheField := by
  refine fun k s => ⟨?type, ?tr, ?win, ?len, ?seq, ?ts, ?crc1, ?crc2, ?encodings⟩
  case type => exact ⟨_, rfl, s.onlyResponds_answer _⟩
  case tr => exact ⟨_, rfl, s.onlyResponds_answer _⟩
  case win => exact ⟨_, rfl, s.onlyResponds_answer _⟩
  case len => exact ⟨_, rfl, s.onlyResponds_answer _⟩
  case seq => exact ⟨_, rfl, s.onlyResponds_answer _⟩
  case ts => exact ⟨_, rfl, s.onlyResponds_answer_word _⟩
  case crc1 => exact ⟨_, rfl, s.onlyResponds_answer_word _⟩
  case crc2 => exact ⟨_, rfl, s.onlyResponds_answer_word _⟩
  case encodings =>
    refine ⟨?_, ?_, ?_, ?_, ?_, ?_, ?_, ?_⟩
    all_goals exact Instr.hasEncoding_of_operation rfl rfl rfl

/-- Settles O42: the range, then the size, then the bank that `assignPayload` leaves. -/
theorem setpayCopiesThePayloadIn : Obligations.SetpayCopiesThePayloadIn := by
  intro k base len s
  have hexec := exec_setpay_eq s k base len
  refine ⟨fun hr hl => ?_, fun hr => ?_, fun hr hl => ?_, ?_⟩
  · rw [if_neg (not_not.2 hr), if_neg (Nat.not_lt.2 hl)] at hexec
    have hread := s.memRead_length base.toNat len.toNat
    have hconsistent := (s.bank k).assignPayload_lengthConsistent (hread.trans_le hl)
    refine ⟨_, hexec, State.responds_ok _ 0 len.isLt, ?_, fun i hi => ?_, fun i hi => ?_, ?_, ?_⟩
    · have hbank := s.bankBecomes_setBank_ok k ((s.bank k).assignPayload (s.memRead base.toNat len.toNat)) 0 len.toNat
      simpa only [State.bank_ok, State.bank_setBank_same, assignPayload_memRead_eq] using hbank
    · rw [State.plByte_ok, State.plByte_setBank_of_copied s k rfl (by rwa [hread])]
      exact slice_getElem _ _ _ _ _
    · rw [State.plByte_ok, State.plByte_setBank_of_beyond s k rfl (by rwa [hread])]
    · rw [State.bank_ok, State.bank_setBank_same]
      exact Bank.assignPayload_len_eq_plen _ (hread.trans_le hl)
    · rw [State.bank_ok, State.bank_setBank_same, hconsistent]
  · rw [if_pos (Nat.not_le.2 hr)] at hexec
    exact ⟨_, hexec, s.fails_raise _⟩
  · rw [if_neg (not_not.2 hr), if_pos (Nat.lt_of_succ_le hl)] at hexec
    exact ⟨_, hexec, s.fails_raise _⟩
  · exact Instr.hasEncoding_of_operation rfl rfl ⟨rfl, rfl, low_half 0 len⟩

/-- Settles O44: the range is that of the stored payload, none when it is absent. -/
theorem getpayCopiesThePayloadOut : Obligations.GetpayCopiesThePayloadOut := by
  intro k base s
  have hexec := exec_getpay_eq s k base
  refine ⟨fun hpv hr => ?_, fun hpv hr => ?_, fun hr => ?_, ?_⟩
  · have hepl : (s.bank k).epl = (s.bank k).plen.toNat := if_pos hpv
    rw [hepl, if_neg (not_not.2 hr), if_neg (by simp [hpv])] at hexec
    refine ⟨_, hexec, State.responds_ok _ 1 (by omega), s.stores_memWrite_ok _ (plRead_length s k _) (fun i hi => ?_) 1 _⟩
    simp [State.plRead]
  · have hepl : (s.bank k).epl = 0 := by simp [Bank.epl, hpv]
    rw [hepl, Nat.add_zero, if_neg (not_not.2 hr), if_pos hpv] at hexec
    exact ⟨_, hexec, s.onlyResponds_ok 0 (by decide)⟩
  · have houtside : ¬base.toNat + (s.bank k).epl ≤ s.params.bmSize := Nat.not_le.2 hr
    rw [if_pos houtside] at hexec
    exact ⟨_, hexec, s.fails_raise _⟩
  · exact Instr.hasEncoding_of_operation rfl rfl ⟨rfl, rfl⟩

end Sys2Proof.Machine
end

section
/-! SUPPORT. `PENC` by its checks (R210): the frame it writes on success, the document's concrete scenario (R225), and that
a packet without the payload it announces is refused (R212, R326). -/

namespace Sys2Proof.Machine

section

variable {s : State} {k : BankId} {base cap : Half} (hr : base.toNat + cap.toNat ≤ s.params.bmSize)
include hr

/-- With every check passed `PENC` writes the frame of the bank (R210). -/
theorem exec_penc_of_fits (hlen : (s.bank k).len.toNat = (s.bank k).epl)
    (hcap : headerSize (s.bank k).len.toNat + 8 + (s.bank k).len.toNat ≤ cap.toNat) :
    exec (.penc k base cap) s = .next ((s.memWrite base.toNat (s.frame k)).ok 0
      (headerSize (s.bank k).len.toNat + 8 + (s.bank k).len.toNat)) := by
  rw [exec_penc_eq, if_neg (not_not.2 hr), if_neg (not_not.2 hlen), if_neg (Nat.not_lt.2 hcap)]

/-- A length other than that of the stored payload is refused (R212). -/
theorem exec_penc_of_inconsistent (hlen : (s.bank k).len.toNat ≠ (s.bank k).epl) :
    exec (.penc k base cap) s = .next (s.raise .invalidLength) := by
  rw [exec_penc_eq, if_neg (not_not.2 hr), if_pos hlen]

/-- A buffer smaller than the frame is refused (R213). -/
theorem exec_penc_of_too_small (hlen : (s.bank k).len.toNat = (s.bank k).epl)
    (hcap : cap.toNat < headerSize (s.bank k).len.toNat + 8 + (s.bank k).len.toNat) :
    exec (.penc k base cap) s = .next (s.raise .bufferTooSmall) := by
  rw [exec_penc_eq, if_neg (not_not.2 hr), if_neg (not_not.2 hlen), if_pos hcap]

end

/-- Settles O46: the checks in order, and behind them the frame that was written. -/
theorem pencWritesTheFrame : Obligations.PencWritesTheFrame := by
  intro k base cap s b len stored total
  refine ⟨fun hr hlen hcap => ?_, fun hr => ?_, fun hr hlen => ?_, fun hr hlen hcap => ?_, ?_⟩
  · have hwritten : (s.frame k).length = total := s.frame_length k
    refine ⟨_, exec_penc_of_fits hr hlen hcap, State.responds_ok _ 0 (hcap.trans_lt cap.isLt),
      State.frame_isFrame (s.at_memWrite base.toNat (s.frame k)), fun c hc => ?_, fun j => ?_, rfl, rfl, rfl⟩
    · exact s.bmByte_memWrite_outside base.toNat c _ (hwritten ▸ hc)
    · rw [State.bank_ok, State.bank_memWrite]
  · have hexec := exec_penc_eq s k base cap
    rw [if_pos (Nat.not_le.2 hr)] at hexec
    exact ⟨_, hexec, s.fails_raise _⟩
  · exact ⟨_, exec_penc_of_inconsistent hr hlen, s.fails_raise _⟩
  · exact ⟨_, exec_penc_of_too_small hr hlen hcap, s.fails_raise _⟩
  · exact Instr.hasEncoding_of_operation rfl rfl ⟨rfl, rfl, low_half 0 cap⟩

/-- Settles O52: without a stored payload the effective payload length is 0, which the announced length is not. -/
theorem headerOnlyPacketsCannotBeEncoded : Obligations.HeaderOnlyPacketsCannotBeEncoded := by
  intro k base len out cap s t hdec _ habsent hlen hr
  obtain ⟨hparams, _, _⟩ := (exec_case hdec).sameBuild
  have hepl : (t.bank k).epl = 0 := by rw [Bank.epl, habsent]; rfl
  have hinconsistent : (t.bank k).len.toNat ≠ (t.bank k).epl := by
    rw [hepl]
    exact fun h0 => hlen (BitVec.eq_of_toNat_eq h0)
  exact ⟨_, exec_penc_of_inconsistent (hparams ▸ hr) hinconsistent, t.fails_raise _⟩

/-! ### The concrete scenario (R225) -/

/-- A frame begins with the header of its bank (R96). -/
theorem State.slice_header_of_frame {s : State} {k : BankId} {f : Nat → Byte} {a : Nat} (h : At f a (s.frame k)) :
    slice f a (headerSize (s.bank k).len.toNat) = (s.bank k).header := by
  obtain ⟨hrest, _⟩ := h.append
  obtain ⟨hrest, _⟩ := hrest.append
  obtain ⟨hheader, _⟩ := hrest.append
  rw [← Bank.header_length, hheader.slice]

/-- The header of the document's scenario (R225). -/
def scenarioHeader : List Byte := [0x50, 0x81, 0x90, 0x03, 0x00, 0x00, 0x00, 0x04]

theorem crc32IsoHdlc_scenarioHeader : crc32IsoHdlc scenarioHeader = 0x43CE6563 := by decide +kernel

/-- A long run of one byte, taken `n` bytes at a time: the accumulator goes from one listed value to the next, and so to the
last one (R152). -/
theorem crcAcc_replicate_of_isChain {x : Byte} {n : Nat} {accs : List Word} {acc : Word}
    (h : (acc :: accs).IsChain (fun u v => crcAcc u (List.replicate n x) = v)) :
    crcAcc acc (List.replicate (n * accs.length) x) = accs.getLastD acc := by
  induction accs generalizing acc with
  | nil => rfl
  | cons next rest ih =>
    obtain ⟨hnext, hrest⟩ := List.isChain_cons_cons.1 h
    rw [List.length_cons, Nat.mul_succ, Nat.add_comm, List.replicate_add, crcAcc_append, hnext, ih hrest,
      List.getLastD_cons]

/-- The accumulator after every 40 of the 400 bytes 0x31. -/
def scenarioAccs : List Word := [0xB6D0FF9B, 0x2F6B9776, 0xCC0918C3, 0x730C1124, 0x7CB672C7, 0x86E86018, 0x85CF9FDF,
  0xDB8D1BD7, 0x248F0D78, 0x6943A904]

theorem scenarioAccs_isChain :
    (0xFFFFFFFF :: scenarioAccs).IsChain (fun u v => crcAcc u (List.replicate 40 0x31) = v) := by decide +kernel

theorem crc32IsoHdlc_scenarioPayload : crc32IsoHdlc (List.replicate 400 0x31) = 0x96BC56FB := by
  have hlength : 40 * scenarioAccs.length = 400 := rfl
  rw [crc32IsoHdlc, ← hlength, crcAcc_replicate_of_isChain scenarioAccs_isChain]
  decide

theorem slice_eq_replicate {f : Nat → Byte} {n : Nat} {x : Byte} (h : ∀ i, i < n → f i = x) :
    slice f 0 n = List.replicate n x := by
  refine List.eq_replicate_iff.2 ⟨slice_length f 0 n, fun y hy => ?_⟩
  obtain ⟨i, hi, rfl⟩ := List.getElem_of_mem hy
  rw [slice_getElem, Nat.zero_add, h i (by simpa using hi)]

/-- Settles O48: the frame's header has the listed bytes, masked or not, and its two checksums are those of the header and
of 400 bytes 0x31. -/
theorem concreteScenario : Obligations.ConcreteScenario := by
  intro k base cap s htype htr hwin hlen hseq hts hpv hplen hpl hdefault hr hcap
  have hlength : (s.bank k).len.toNat = 400 := by rw [hlen]; rfl
  have hepl : (s.bank k).epl = 400 := by rw [Bank.epl, hpv, hplen]; rfl
  have hexec := exec_penc_of_fits (k := k) hr (by rw [hlength, hepl]) (by rw [hlength]; exact hcap)
  have hat := s.at_memWrite base.toNat (s.frame k)
  have hheader : slice (s.memWrite base.toNat (s.frame k)).bmByte base.toNat 8 = scenarioHeader := by
    have hslice := State.slice_header_of_frame hat
    rw [hlength] at hslice
    refine hslice.trans ?_
    rw [Bank.header, htype, htr, hwin, hlen, hseq, hts]
    decide
  obtain ⟨_, _, _, _, _, hcrc1, hpayload, hcrc2⟩ := State.frame_isFrame hat
  rw [hlength] at hexec hcrc1 hpayload hcrc2
  rw [hdefault] at hcrc1 hcrc2
  refine ⟨_, hexec, State.responds_ok _ 0 (by decide), hheader, hcrc1.trans ?_, fun i hi => ?_, hcrc2.trans ?_⟩
  · obtain ⟨hfirst, hrest⟩ := List.cons.inj hheader
    rw [← crc32IsoHdlc_scenarioHeader]
    refine congrArg crc32IsoHdlc ?_
    split
    · exact congrArg₂ List.cons (congrArg maskTr hfirst) hrest
    · exact hheader
  · exact (hpayload i hi).trans (hpl i hi)
  · rw [slice_eq_replicate hpl]
    exact crc32IsoHdlc_scenarioPayload

end Sys2Proof.Machine
end

section
/-! SUPPORT. `PDEC` of what `PENC` wrote from a packet with the truncated flag set, or with no type (R221, R223, R245). -/

namespace Sys2Proof.Machine

/-! ### The decoder on an input it refuses for byte 0, and on a truncated DATA frame -/

section

variable {crc1 crc2 : List Byte → Word} {n : Nat} {f : Nat → Byte}

/-- The type is the first thing looked at behind the floors (R233). -/
theorem decodeFrame_of_untyped (hn : 11 ≤ n) (htype : inType f = 0) :
    decodeFrame crc1 crc2 n f = .error .invalidType := by
  obtain ⟨_, _, heq⟩ := decodeFrame_eq crc1 crc2 f hn
  rw [heq, if_pos htype]

/-- The truncated flag stands only beside DATA (R118, R233). -/
theorem decodeFrame_of_truncated_not_data (hn : 11 ≤ n) (htype : inType f ≠ 0) (htr : inTr f = 1)
    (hdata : inType f ≠ 1) : decodeFrame crc1 crc2 n f = .error .invalidTruncationFlag := by
  obtain ⟨_, _, heq⟩ := decodeFrame_eq crc1 crc2 f hn
  rw [heq, if_neg htype, if_pos fun h => hdata (h htr)]

/-- The input announces a truncated DATA frame of an accepted length, and its header and CRC1 lie within its `n`
bytes. -/
structure TruncatedFrame (n : Nat) (f : Nat → Byte) : Prop where
  floor : 11 ≤ n
  data : inType f = 1
  truncated : inTr f = 1
  cap : inLen f ≤ 512
  fits : inHeader f + 4 ≤ n

/-- Of a truncated frame only the header and its checksum count (R242). -/
theorem TruncatedFrame.decodeFrame_eq (h : TruncatedFrame n f) : decodeFrame crc1 crc2 n f =
    if ¬inCrc1Ok crc1 f then .error .checksumMismatch
    else .ok { headerShadow f with size := inHeader f + 4 } := by
  obtain ⟨hfloor, hdata, htr, hcap, hfits⟩ := h
  obtain ⟨v, hv, heq⟩ := Machine.decodeFrame_eq crc1 crc2 f hfloor
  have hlen : v = BitVec.ofNat 15 (inLen f) := by rw [← hv, BitVec.ofNat_toNat, BitVec.setWidth_eq]
  rw [heq, if_neg (by omega), if_neg (not_not.2 fun _ => hdata), if_neg (by omega), decodeRest_eq _ _ _ hv]
  simp [htr, hlen, headerShadow, Nat.not_lt.2 hfits]

end

/-! ### The frame of a bank with the truncated flag -/

/-- The header as a list that begins with byte 0. -/
theorem slice_header_eq_cons (f : Nat → Byte) :
    slice f 0 (inHeader f) = f 0 :: slice f 1 (inHeader f - 1) := by
  rw [inHeader, Nat.add_comm]
  rfl

section

variable {crc : List Byte → Word} {mask : Bool} {b : Bank} {pl f : Nat → Byte}

/-- An encoder that masks computes the header checksum as the decoder does (R218, R239). -/
theorem IsFrame.inCrc1Ok_of_mask (h : IsFrame crc true b pl f 0) : Machine.inCrc1Ok crc f := by
  obtain ⟨_, _, _, _, _, hcrc, _⟩ := id h
  rw [← h.inHeader_eq, Nat.zero_add] at hcrc
  exact hcrc.symm

/-- An encoder that does not mask checksums a header that differs in byte 0 from the one the decoder checksums, and the
default function tells them apart (R153, R223). -/
theorem IsFrame.not_inCrc1Ok (h : IsFrame crc32IsoHdlc false b pl f 0) (htr : inTr f = 1) :
    ¬Machine.inCrc1Ok crc32IsoHdlc f := by
  have hmask : ∀ x : Byte, x.toNat / 32 % 2 = 1 → x &&& 0xDF#8 ≠ x := by decide
  obtain ⟨_, _, _, _, _, hcrc, _⟩ := id h
  rw [← h.inHeader_eq, Nat.zero_add] at hcrc
  rw [Machine.inCrc1Ok, hcrc, if_neg Bool.false_ne_true, slice_header_eq_cons]
  exact crc32IsoHdlc_ne_of_byte_ne [] _ (hmask (f 0) htr)

/-- What the header of a frame decodes to are the fields of its bank (R97, R236, R238). -/
theorem IsFrame.headerShadow_eq (h : IsFrame crc mask b pl f 0) : headerShadow f =
    { type := b.type, tr := b.tr, win := b.win, len := b.len, seq := b.seq, ts := b.ts,
      crc1 := fromBe32 f (headerSize b.len.toNat), body := none,
      size := headerSize b.len.toNat + 8 + b.len.toNat } := by
  have hunpack : ∀ (t : BitVec 2) (r : BitVec 1) (w : BitVec 5),
      byte0Type (byte0 t r w) = t ∧ byte0Tr (byte0 t r w) = r ∧ byte0Win (byte0 t r w) = w := by decide
  obtain ⟨htype, htr, hwin⟩ := hunpack b.type b.tr b.win
  obtain ⟨_, _, _, hseq, hts, _⟩ := id h
  rw [Nat.zero_add] at hseq hts
  rw [headerShadow, h.inLen_eq, h.inWidth_eq, h.inHeader_eq, h.byte0_eq, htype, htr, hwin, hseq, hts,
    BitVec.ofNat_toNat, BitVec.setWidth_eq]

end

/-! ### What `PDEC` says -/

/-- `PDEC` fails as the decoder does. -/
theorem pdec_fails {t : State} {base len : Half} {kind : Status} (hr : base.toNat + len.toNat ≤ t.params.bmSize)
    (k : BankId) (h : decodeFrame (crc32Of t.params.crc32) (crc32Of t.params.crc32) len.toNat (fromBase t base) =
      .error kind) : ∃ u, exec (.pdec k base len) t = .next u ∧ Fails t u kind :=
  ⟨_, exec_pdec_of_error hr k h, t.fails_raise _⟩

/-- Settles O54: byte 0 carries the type and the flag as they are; a truncated DATA frame is judged by its header
checksum, which fits if the encoder masked and otherwise does not. -/
theorem truncatedPacketsDecodeOnlyIfMasked : Obligations.TruncatedPacketsDecodeOnlyIfMasked := by
  intro a b base cap len s t hexec hok hcap hn hr
  have hframe := penc_isFrame hexec hok
  obtain ⟨hsize, _⟩ := penc_size hexec hok
  have hparams := penc_params hexec
  rw [← hparams] at hr
  rw [hsize] at hn
  have hhl : headerSize (s.bank a).len.toNat = 6 + lengthWidth (s.bank a).len.toNat := rfl
  have hwidth : 1 ≤ lengthWidth (s.bank a).len.toNat := by unfold lengthWidth; split <;> decide
  have hfloor : 11 ≤ len.toNat := by omega
  have htype_eq : ∀ c : BitVec 2, inType (fromBase t base) = c.toNat ↔ (s.bank a).type = c := fun c => by
    rw [hframe.inType_eq, BitVec.toNat_inj]
  have htruncated : (s.bank a).tr = 1 → inTr (fromBase t base) = 1 := fun htr => by
    rw [hframe.inTr_eq, htr]
    rfl
  have hcut : (s.bank a).tr = 1 → (s.bank a).type = 1 → TruncatedFrame len.toNat (fromBase t base) :=
    fun htr hdata => ⟨hfloor, (htype_eq 1).2 hdata, htruncated htr, by rwa [hframe.inLen_eq],
      by rw [hframe.inHeader_eq]; omega⟩
  refine ⟨fun htype => ?_, fun htr htype hdata => ?_, fun htr hdata hmask hdefault => ?_, fun htr hdata hmask => ?_⟩
  · exact pdec_fails hr b (decodeFrame_of_untyped hfloor ((htype_eq 0).2 htype))
  · exact pdec_fails hr b (decodeFrame_of_truncated_not_data hfloor (mt (htype_eq 0).1 htype) (htruncated htr)
      (mt (htype_eq 1).1 hdata))
  · rw [hmask, hdefault] at hframe
    refine pdec_fails hr b ?_
    rw [(hcut htr hdata).decodeFrame_eq, hparams, hdefault]
    exact if_pos (hframe.not_inCrc1Ok (htruncated htr))
  · have hdec := (hcut htr hdata).decodeFrame_eq (crc1 := crc32Of t.params.crc32) (crc2 := crc32Of t.params.crc32)
    rw [hmask, ← hparams] at hframe
    rw [if_neg (not_not.2 hframe.inCrc1Ok_of_mask), hframe.headerShadow_eq, hframe.inHeader_eq] at hdec
    have hcount : headerSize (s.bank a).len.toNat + 4 < 2 ^ 16 := by omega
    refine ⟨_, exec_pdec_of_ok hr b hdec, State.responds_ok _ 0 hcount, ?_⟩
    rw [State.bank_ok, State.bank_setBank_same]
    exact ⟨hdata, htr, rfl, rfl, rfl, rfl, rfl, rfl, rfl⟩

end Sys2Proof.Machine
end

section
/-! SUPPORT. `PDEC` as the rows of the table of R244: which failure is reported first, and the packet that is stored when
there is none (R230, R241, R242, R243). -/

namespace Sys2Proof.Machine

/-! ### The decoder, row by row -/

section

variable {crc1 crc2 : List Byte → Word} {n : Nat} {f : Nat → Byte}

/-- The first floor (R231). -/
theorem decodeFrame_of_no_header (hn : n ≤ 6) : decodeFrame crc1 crc2 n f = .error .headerTooShort :=
  if_pos (Nat.lt_succ_of_le hn)

/-- The second floor (R231): a header alone, without room for CRC1. -/
theorem decodeFrame_of_no_crc1 (h7 : 7 ≤ n) (h10 : n ≤ 10) :
    decodeFrame crc1 crc2 n f = .error .checksumMismatch :=
  (if_neg (Nat.not_lt.2 h7)).trans (if_pos (Nat.lt_succ_of_le h10))

/-- The announced length is held to the cap behind the checks of byte 0 (R236). -/
theorem decodeFrame_of_too_long (hn : 11 ≤ n) (htype : inType f ≠ 0) (hflag : inTr f = 1 → inType f = 1)
    (hlen : 512 < inLen f) : decodeFrame crc1 crc2 n f = .error .invalidLength := by
  obtain ⟨_, _, heq⟩ := decodeFrame_eq crc1 crc2 f hn
  rw [heq, if_neg htype, if_neg (not_not.2 hflag), if_pos hlen]

/-- What the input announces passes the floors, the checks of byte 0 and the cap (R231, R233, R236). -/
structure AcceptedAnnouncement (n : Nat) (f : Nat → Byte) : Prop where
  floor : 11 ≤ n
  typed : inType f ≠ 0
  flag : inTr f = 1 → inType f = 1
  cap : inLen f ≤ 512

/-- The packet that a sound input decodes to: its header, with payload and CRC2 when it is an untruncated DATA frame
(R241, R242, R243). -/
def inputShadow (f : Nat → Byte) : Shadow :=
  { headerShadow f with
    body := if inTr f = 0 ∧ inType f = 1 then
      some (fromBe32 f (inHeader f + 4 + inLen f), slice f (inHeader f + 4) (inLen f)) else none
    size := if inTr f = 0 then inHeader f + 8 + inLen f else inHeader f + 4 }

/-- The reported count is the size of what the decoder looked at (R243). -/
theorem inputShadow_size (f : Nat → Byte) :
    (inputShadow f).size = if inTr f = 0 then inHeader f + 8 + inLen f else inHeader f + 4 := rfl

theorem inputShadow_body_of_data (htr : inTr f = 0) (hdata : inType f = 1) : (inputShadow f).body =
    some (fromBe32 f (inHeader f + 4 + inLen f), slice f (inHeader f + 4) (inLen f)) := if_pos ⟨htr, hdata⟩

theorem inputShadow_body_of_not_data (h : ¬(inTr f = 0 ∧ inType f = 1)) : (inputShadow f).body = none := if_neg h

/-- The four checks behind the announcement, in their order (R230 steps 4 to 9). -/
theorem AcceptedAnnouncement.decodeFrame_eq (h : AcceptedAnnouncement n f) : decodeFrame crc1 crc2 n f =
    if n < inHeader f + 4 ∨ ¬inCrc1Ok crc1 f then .error .checksumMismatch
    else if inTr f = 0 ∧ n < inLen f + inHeader f + 8 then .error .inconsistentLength
    else if inTr f = 0 ∧ inType f = 1 ∧ ¬inCrc2Ok crc2 f then .error .checksumMismatch
    else .ok (inputShadow f) := by
  obtain ⟨hn, htype, hflag, hcap⟩ := h
  obtain ⟨v, hv, heq⟩ := Machine.decodeFrame_eq crc1 crc2 f hn
  have hlen : v = BitVec.ofNat 15 (inLen f) := by rw [← hv, BitVec.ofNat_toNat, BitVec.setWidth_eq]
  rw [heq, if_neg htype, if_neg (not_not.2 hflag), if_neg (Nat.not_lt.2 hcap), decodeRest_eq _ _ _ hv, hlen]
  rfl

/-- With every check passed the decoder answers the packet (R230, R243). -/
theorem decodeFrame_of_headerOk (h : inHeaderOk crc1 n f) (hfits : inTr f = 0 → inLen f + inHeader f + 8 ≤ n)
    (hcrc2 : inTr f = 0 → inType f = 1 → inCrc2Ok crc2 f) :
    decodeFrame crc1 crc2 n f = .ok (inputShadow f) := by
  obtain ⟨hn, htype, hflag, hcap, hroom, hcrc1⟩ := h
  rw [AcceptedAnnouncement.decodeFrame_eq ⟨hn, htype, hflag, hcap⟩,
    if_neg (not_or.2 ⟨Nat.not_lt.2 hroom, not_not.2 hcrc1⟩), if_neg fun ⟨htr, hlt⟩ => Nat.not_lt.2 (hfits htr) hlt,
    if_neg fun ⟨htr, hdata, hbad⟩ => hbad (hcrc2 htr hdata)]

end

/-- The range check stands before all others (R230). -/
theorem exec_pdec_of_outside {s : State} {base len : Half} (h : s.params.bmSize < base.toNat + len.toNat) (k : BankId) :
    exec (.pdec k base len) s = .next (s.raise .addressError) := by
  simp [exec, execPdec, State.inRange, Nat.not_le.2 h]

/-- Settles O49, row by row; behind the announcement each row is a branch of the decoder's chain of checks. -/
theorem pdecReportsTheFirstFailure : Obligations.PdecReportsTheFirstFailure := by
  intro k base len s n f crc
  obtain ⟨t, ht⟩ := exec_completes (.pdec k base len) s
  refine ⟨t, ht, fun hout => ?_, fun hr => ?_, Instr.hasEncoding_of_operation rfl rfl ⟨rfl, rfl, low_half 0 len⟩⟩
  · obtain rfl := Host.Outcome.next.inj (ht.symm.trans (exec_pdec_of_outside hout k))
    exact s.fails_raise _
  have hfails : ∀ {kind}, decodeFrame crc crc n f = .error kind → Fails s t kind := fun h => by
    obtain rfl := Host.Outcome.next.inj (ht.symm.trans (exec_pdec_of_error hr k h))
    exact s.fails_raise _
  have hheader : inHeader f = 6 + inWidth f := rfl
  have hwidth := inWidth_cases f
  refine ⟨fun hn => hfails (decodeFrame_of_no_header hn), fun h7 h10 => hfails (decodeFrame_of_no_crc1 h7 h10),
    fun hn => ⟨fun htype => hfails (decodeFrame_of_untyped hn htype),
      fun htype htr hdata => hfails (decodeFrame_of_truncated_not_data hn htype htr hdata), fun htype hflag => ?_⟩⟩
  have hchain := fun hlen => AcceptedAnnouncement.decodeFrame_eq (crc1 := crc) (crc2 := crc) ⟨hn, htype, hflag, hlen⟩
  refine ⟨fun hlen => hfails (decodeFrame_of_too_long hn htype hflag hlen), fun hlen h11 h2 => hfails ?_,
    fun hlen h11 => ?_⟩
  · rw [hchain hlen, if_pos (.inl (by omega))]
  have hdec := hchain hlen
  have hroom : ¬n < inHeader f + 4 := by omega
  refine ⟨fun hcrc1 => hfails ?_, fun hcrc1 htr hsize => hfails ?_, fun hcrc1 htr hsize hdata hcrc2 => hfails ?_,
    fun hcrc1 hsize hcrc2 => ?_⟩
  · rw [hdec, if_pos (.inr hcrc1)]
  all_goals rw [if_neg (not_or.2 ⟨hroom, not_not.2 hcrc1⟩)] at hdec
  · rw [hdec, if_pos ⟨htr, hsize⟩]
  · rw [hdec, if_neg (by omega), if_pos ⟨htr, hdata, hcrc2⟩]
  · rw [if_neg (by omega), if_neg fun ⟨htr, hdata, hbad⟩ => hbad (hcrc2 htr hdata)] at hdec
    obtain rfl := Host.Outcome.next.inj (ht.symm.trans (exec_pdec_of_ok hr k hdec))
    rfl

/-! ### The packet stored -/

/-- The header fields of a stored packet are those the input announces (R97, R230). -/
theorem headerFields_commit_inputShadow (b : Bank) {f : Nat → Byte} (hcap : inLen f ≤ 512) :
    HeaderFields (b.commit (inputShadow f)) f :=
  ⟨byte0Type_toNat _, byte0Tr_toNat _, byte0Win_toNat _, ofNat_len_toNat hcap, rfl, rfl, rfl⟩

/-- Settles O50: the body of the stored packet is CRC2 and the payload. -/
theorem pdecStoresADataFrame : Obligations.PdecStoresADataFrame := by
  intro k base len s f crc hr hheader htr hdata hfits hcrc2
  have hdec := decodeFrame_of_headerOk hheader (fun _ => hfits) (fun _ _ => hcrc2)
  obtain ⟨_, _, _, hcap, _⟩ := hheader
  have hbody := inputShadow_body_of_data htr hdata
  have hcount : inHeader f + 8 + inLen f < 2 ^ 16 := by omega
  have hpl : ((s.bank k).commit (inputShadow f)).pl =
      (s.bank k).pl.setBytes 0 (slice f (inHeader f + 4) (inLen f)) := by rw [Bank.commit, hbody]
  obtain ⟨hbank, hrest⟩ := s.bankBecomes_setBank_ok k ((s.bank k).commit (inputShadow f)) 0 (inputShadow f).size
  refine ⟨_, exec_pdec_of_ok hr k hdec, ?_, ?_, ?_, ?_, ?_, fun i hi => ?_, fun i hi => ?_, hrest⟩
  · rw [inputShadow_size, if_pos htr]
    exact State.responds_ok _ 0 hcount
  · rw [hbank]
    exact headerFields_commit_inputShadow _ hcap
  · rw [hbank, Bank.commit, hbody]
  · rw [hbank, Bank.commit, hbody]
    rfl
  · rw [hbank, Bank.commit, hbody]
    exact (congrArg _ (congrArg narrowPlen (slice_length _ _ _))).trans (narrowPlen_toNat hcap)
  · rw [State.plByte_ok, State.plByte_setBank_of_copied s k hpl (by rwa [slice_length])]
    exact slice_getElem _ _ _ _ _
  · rw [State.plByte_ok, State.plByte_setBank_of_beyond s k hpl (by rwa [slice_length])]

/-- Settles O51: the stored packet has no body, so no check looks behind CRC1. -/
theorem pdecStoresAHeaderOnly : Obligations.PdecStoresAHeaderOnly := by
  intro k base len s f crc hr hheader hkind
  have hnone : ¬(inTr f = 0 ∧ inType f = 1) := by omega
  have hdec := decodeFrame_of_headerOk (crc2 := crc) hheader (fun htr => by omega)
    (fun htr hdata => absurd ⟨htr, hdata⟩ hnone)
  obtain ⟨_, _, _, hcap, hroom, _⟩ := hheader
  have hbody := inputShadow_body_of_not_data hnone
  have hcount : (inputShadow f).size < 2 ^ 16 := by
    rw [inputShadow_size]
    split <;> omega
  obtain ⟨hbank, hrest⟩ := s.bankBecomes_setBank_ok k ((s.bank k).commit (inputShadow f)) 0 (inputShadow f).size
  refine ⟨_, exec_pdec_of_ok hr k hdec, State.responds_ok _ 0 hcount, ?_, ?_, ?_, ?_, fun i => ?_, hrest⟩
  · rw [hbank]
    exact headerFields_commit_inputShadow _ hcap
  · rw [hbank, Bank.commit, hbody]
  · rw [hbank, Bank.commit, hbody]
    rfl
  · rw [hbank, Bank.commit, hbody]
  · rw [State.plByte_ok, State.plByte_setBank_of_pl_eq s k (by rw [Bank.commit, hbody])]

end Sys2Proof.Machine
end

section
/-! SUPPORT. `PDEC` of what `PENC` wrote (R245), and of such a frame with the truncated bit set on the way (R246). -/

namespace Sys2Proof.Machine

section

variable {crc : List Byte → Word} {mask : Bool} {b : Bank} {pl f : Nat → Byte} (h : IsFrame crc mask b pl f 0)
include h

theorem IsFrame.inWin_eq : inWin f = b.win.toNat := by
  have hunpack : ∀ (t : BitVec 2) (r : BitVec 1) (w : BitVec 5), byte0Win (byte0 t r w) = w := by decide
  rw [inWin, ← byte0Win_toNat, h.byte0_eq, hunpack]

/-- A bank that takes its header fields from the frame of `b` agrees with `b` on them (R245). -/
theorem IsFrame.fields_of_headerFields {c : Bank} (hc : HeaderFields c f) :
    c.type = b.type ∧ c.tr = b.tr ∧ c.win = b.win ∧ c.len = b.len ∧ c.seq = b.seq ∧ c.ts = b.ts := by
  obtain ⟨htype, htr, hwin, hlen, hseq, hts, _⟩ := hc
  obtain ⟨_, _, _, hframeSeq, hframeTs, _⟩ := id h
  rw [Nat.zero_add, ← h.inWidth_eq] at hframeSeq hframeTs
  exact ⟨BitVec.eq_of_toNat_eq (htype.trans h.inType_eq), BitVec.eq_of_toNat_eq (htr.trans h.inTr_eq),
    BitVec.eq_of_toNat_eq (hwin.trans h.inWin_eq), BitVec.eq_of_toNat_eq (hlen.trans h.inLen_eq),
    hseq.trans hframeSeq, hts.trans hframeTs⟩

/-- Setting the truncated bit of an untruncated frame gives the frame that a masking encoder makes of the truncated packet:
CRC1 is over the header with that bit clear in both (R218, R246). -/
theorem IsFrame.flip_truncated (htr : b.tr = 0) : IsFrame crc true { b with tr := 1 } pl (flipInput f 0 5) 0 := by
  have hflip : ∀ (t : BitVec 2) (w : BitVec 5), byte0 t 0 w ^^^ (1#8 <<< 5) = byte0 t 1 w := by decide
  have hmask : ∀ x : Byte, (x ^^^ (1#8 <<< 5)) &&& 0xDF#8 = x &&& 0xDF#8 := by decide
  have hbyte0 : flipInput f 0 5 0 = f 0 ^^^ (1#8 <<< 5) := Function.update_self _ _ _
  have hbyte : ∀ c, 0 < c → flipInput f 0 5 c = f c :=
    fun c hc => Function.update_of_ne (β := fun _ => Byte) (by omega) _ f
  have hcrc1 := h.inCrc1Ok htr
  rw [Machine.inCrc1Ok, h.inHeader_eq] at hcrc1
  obtain ⟨_, hone, htwo, hseq, hts, _, hpayload, hcrc2⟩ := id h
  have hbe : ∀ c, 0 < c → fromBe32 (flipInput f 0 5) c = fromBe32 f c :=
    fun _ hc => fromBe32_update_outside (.inl hc)
  have hslice : ∀ c m, 0 < c → slice (flipInput f 0 5) c m = slice f c m :=
    fun _ _ hc => slice_update_outside (.inl hc)
  have hpos : 0 < 0 + headerSize b.len.toNat := by rw [headerSize]; omega
  refine ⟨?_, fun hlen => ?_, fun hlen => ?_, ?_, ?_, ?_, fun i hi => ?_, ?_⟩
  · rw [hbyte0, h.byte0_eq, htr, hflip, byte0_or]
  · rw [hbyte _ (by omega), hone hlen]
  · rw [hbyte (0 + 1) (by omega), hbyte (0 + 2) (by omega)]
    exact htwo hlen
  · rw [hbyte _ (by omega), hseq]
  · rw [hbe _ (by omega), hts]
  · rw [if_pos rfl, hbyte0, hmask, hbe _ hpos, hslice _ _ (by omega), Nat.zero_add, Nat.zero_add]
    exact hcrc1.symm
  · rw [hbyte _ (by omega), hpayload i hi]
  · rw [hbe _ (by omega), hcrc2]

/-- The type that a frame announces is that of its bank (R97). -/
theorem IsFrame.inType_eq_iff (c : BitVec 2) : inType f = c.toNat ↔ b.type = c := by
  rw [h.inType_eq, BitVec.toNat_inj]

/-- A frame of a packet that keeps the rules of R118 and R175 passes the checks of the decoder's header part, as soon as
its header and CRC1 lie in the input and CRC1 fits. -/
theorem IsFrame.inHeaderOk {n : Nat} (htype : b.type ≠ 0) (hflag : b.tr = 1 → b.type = 1) (hlen : b.len.toNat ≤ 512)
    (hfloor : 11 ≤ n) (hroom : headerSize b.len.toNat + 4 ≤ n) (hcrc1 : Machine.inCrc1Ok crc f) :
    Machine.inHeaderOk crc n f :=
  ⟨hfloor, mt (h.inType_eq_iff 0).1 htype,
    fun htr => (h.inType_eq_iff 1).2 (hflag (BitVec.eq_of_toNat_eq (h.inTr_eq.symm.trans htr))),
    h.inLen_eq ▸ hlen, h.inHeader_eq ▸ hroom, hcrc1⟩

end

/-- Settles O53: the frame is whole with both checksums in place, so `PDEC` stores what it announces, and that are the
fields and the payload of the encoded bank. -/
theorem encodedPacketsDecode : Obligations.EncodedPacketsDecode := by
  intro a b base cap len s t hexec hok htype htr hlen hn hr
  have hframe := penc_isFrame hexec hok
  obtain ⟨hsize, _⟩ := penc_size hexec hok
  rw [← penc_params hexec] at hframe hr
  rw [hsize] at hn ⊢
  have hhl : headerSize (s.bank a).len.toNat = 6 + lengthWidth (s.bank a).len.toNat := rfl
  have hheader := hframe.inHeaderOk (n := len.toNat) htype (fun h1 => absurd (htr.symm.trans h1) (by decide)) hlen
    (by omega) (by omega) (hframe.inCrc1Ok htr)
  have huntruncated : inTr (fromBase t base) = 0 := by rw [hframe.inTr_eq, htr]; rfl
  have hfits : inLen (fromBase t base) + inHeader (fromBase t base) + 8 ≤ len.toNat := by
    rw [hframe.inLen_eq, hframe.inHeader_eq]
    omega
  have htyped := hframe.inType_eq_iff 1
  by_cases hdata : (s.bank a).type = 1
  · obtain ⟨u, hdec, hresp, hfields, _, hpv, hplen, hpl, _⟩ :=
      pdecStoresADataFrame b base len t hr hheader huntruncated (htyped.2 hdata) hfits hframe.inCrc2Ok
    obtain ⟨htype', htr', hwin, hlen', hseq, hts⟩ := hframe.fields_of_headerFields hfields
    rw [hframe.inLen_eq] at hresp hplen hpl
    rw [hframe.inHeader_eq] at hresp hpl
    refine ⟨u, hdec, hresp, htype', htr', hwin, hlen', hseq, hts, fun _ => ⟨hpv, hplen, fun i hi => ?_⟩,
      fun hother => absurd hdata hother⟩
    obtain ⟨_, _, _, _, _, _, hpayload, _⟩ := hframe
    rw [hpl i hi, ← hpayload i hi, Nat.zero_add]
  · obtain ⟨u, hdec, hresp, hfields, hcrc2, hpv, hplen, _⟩ :=
      pdecStoresAHeaderOnly b base len t hr hheader (.inr ⟨mt htyped.1 hdata, hfits⟩)
    obtain ⟨htype', htr', hwin, hlen', hseq, hts⟩ := hframe.fields_of_headerFields hfields
    rw [if_pos huntruncated, hframe.inLen_eq, hframe.inHeader_eq] at hresp
    exact ⟨u, hdec, hresp, htype', htr', hwin, hlen', hseq, hts, fun hdata' => absurd hdata' hdata,
      fun _ => ⟨hpv, hplen, hcrc2⟩⟩

/-- Settles O55: the flipped frame is that of the truncated packet as a masking encoder writes it, of which the decoder
looks at nothing behind CRC1. -/
theorem truncatedBitMayBeSetInFlight : Obligations.TruncatedBitMayBeSetInFlight := by
  intro a b base cap n s t hexec hok hdata htr hlen hfloor hroom hr
  have hflipped := (penc_isFrame hexec hok).flip_truncated htr
  rw [← fromBase_flipBit t base 0 5, Nat.add_zero, ← penc_params hexec] at hflipped
  rw [← penc_params hexec] at hr
  have hheader := hflipped.inHeaderOk (by rw [hdata]; decide) (fun _ => hdata) hlen hfloor hroom
    hflipped.inCrc1Ok_of_mask
  have htruncated := hflipped.inTr_eq
  obtain ⟨u, hdec, hresp, hfields, hcrc2, hpv, hplen, _⟩ :=
    pdecStoresAHeaderOnly b base n (flipBit t base.toNat 5) hr hheader (.inl htruncated)
  obtain ⟨htype', htr', hwin, hlen', hseq, hts⟩ := hflipped.fields_of_headerFields hfields
  rw [if_neg (htruncated.trans_ne Nat.one_ne_zero), hflipped.inHeader_eq] at hresp
  exact ⟨u, hdec, hresp, htype'.trans hdata, htr', hwin, hlen', hseq, hts, hpv, hplen, hcrc2⟩

end Sys2Proof.Machine
end

section
/-! SUPPORT. Host access to the buffer memory: `BMWR` and `BMRD` by their range check (R260, R261). -/

namespace Sys2Proof.Machine

/-- Settles O58: one byte is stored where it is in range, so `addr = BM_SIZE - 1` succeeds. -/
theorem bmwrWritesOneByte : Obligations.BmwrWritesOneByte := by
  intro addr byte s
  have hexec := exec_bmwr_eq s addr byte
  refine ⟨fun hin => ?_, fun hout => ?_, ?_⟩
  · rw [if_neg (not_not.2 (Nat.succ_le_of_lt hin))] at hexec
    have hbyte : ∀ i (h : i < [byte].length), [byte][i] = byte := fun i h => List.getElem_singleton h
    exact ⟨_, hexec, State.responds_ok _ 0 (by decide), s.stores_memWrite_ok _ rfl hbyte 0 1⟩
  · rw [if_pos (Nat.not_le.2 (Nat.lt_succ_of_le hout))] at hexec
    exact ⟨_, hexec, s.fails_raise _⟩
  · exact Instr.hasEncoding_of_operation rfl rfl ⟨rfl, low_byte byte⟩

/-- Settles O59: the result is the byte zero-extended, and nothing is written. -/
theorem bmrdReadsOneByte : Obligations.BmrdReadsOneByte := by
  intro addr s
  have hexec := exec_bmrd_eq s addr
  refine ⟨fun hin => ?_, fun hout => ?_, ?_⟩
  · rw [if_neg (not_not.2 (Nat.succ_le_of_lt hin))] at hexec
    exact ⟨_, hexec, s.onlyResponds_ok _ (by decide)⟩
  · rw [if_pos (Nat.not_le.2 (Nat.lt_succ_of_le hout))] at hexec
    exact ⟨_, hexec, s.fails_raise _⟩
  · exact Instr.hasEncoding_of_operation rfl rfl rfl

end Sys2Proof.Machine
end

section
/-! SUPPORT. The exceptions of the block: the codes of the statuses (R270), the statuses of each operation (R284), and
what a failure leaves alone (R292). -/

namespace Sys2Proof.Machine

/-- The codes left free between `InconsistentLength` and `AddressError` belong to no kind (R270). -/
theorem Status.code_ne_unused (st : Status) : st.code ≠ 10 ∧ st.code ≠ 11 ∧ st.code ≠ 12 ∧ st.code ≠ 13 := by
  cases st <;> decide

/-- Settles O17: the listed codes are the equations of `Status.code`. -/
theorem statusCodesAreListed : Obligations.StatusCodesAreListed :=
  ⟨rfl, rfl, rfl, rfl, rfl, rfl, rfl, rfl, rfl, rfl, rfl, rfl, Status.code_ne_unused⟩

section

variable {s t : State} {i : Instr} (hc : ExecCase s i t)
include hc

/-- Only a raised failure ends with a status other than `Ok`, so a bank or a byte is written only under `Ok` (R292). -/
theorem ExecCase.fails_of_ne_ok (hst : t.rsp.st ≠ .ok) : Fails s t t.rsp.st := by
  cases hc with
  | failed kind _ _ => exact s.fails_raise kind
  | answered _ _ _ => exact absurd rfl hst
  | banked _ _ _ _ _ => exact absurd rfl hst
  | stored _ _ _ _ _ _ => exact absurd rfl hst

/-- Whatever an instruction does, the table of R284 has its status. -/
theorem ExecCase.status_mem_allowedStatuses : t.rsp.st ∈ allowedStatuses i := by
  cases hc with
  | failed _ _ hkind => exact hkind
  | answered _ _ hok => exact hok
  | banked _ _ _ hok _ => exact hok
  | stored _ _ _ hok _ _ => exact hok

end

/-- Settles O20: of the four things an instruction can do, the three that are no failure end with `Ok`. -/
theorem failureChangesOnlyTheResponse : Obligations.FailureChangesOnlyTheResponse :=
  fun _ _ _ hexec hst => (exec_case hexec).fails_of_ne_ok hst

/-- Settles O21: each of the four things an instruction can do carries its entry in the table. -/
theorem statusTableHolds : Obligations.StatusTableHolds :=
  fun _ _ _ hexec => (exec_case hexec).status_mem_allowedStatuses

end Sys2Proof.Machine
end
